-- ==== Sys2Proof/Word.lean ====
section
/-! DEFINITION. The three word types of the block (spec/00_scope.md R10, spec/30_encoding.md R61, R66).
Every value of the block is unsigned (R10), bits are numbered from 0 at the least significant bit. -/

namespace Sys2Proof

/-- A byte: a position register, a table entry, a data field, RSP_DATA (R21, R45). -/
abbrev Byte := BitVec 8

/-- The 32-bit command word CW (R60, R61). -/
abbrev CommandWord := BitVec 32

/-- The 64-bit key operand KEYIN (R66). -/
abbrev KeyOperand := BitVec 64

end Sys2Proof
end

