-- ==== Sys2Proof/Config.lean ====
section
/-! DEFINITION. What an implementation fixes (spec/00_scope.md R7, R8): the bound on NMAX, and the two values
that `State.reset` gives to the spec's parameters NMAX and TS. NMAX and TS themselves are held as plain data in
State (fields no step changes), so every statement about every state holds for every NMAX and every TS; see
notes/assumptions/1.md and notes/assumptions/2.md. The spec leaves no other value open, so there is no free value. -/

namespace Sys2Proof

/-- The largest number of physical stages: 1 <= NMAX <= 255 (R7). -/
def Config.maxStages : Nat := 255

/-- DESIGN CHOICE (notes/assumptions/1.md): NMAX of the block that `State.reset` describes, the NMAX of the spec's
test vectors (spec/95_test_vectors.md, Conventions). -/
def Config.resetStages : Nat := 4

/-- DESIGN CHOICE (notes/assumptions/2.md): what a wheel-table entry that the state does not list reads as. It is
the `identity` table of all zeros of R3(a). -/
def Config.unlistedTableByte : Byte := 0x00#8

end Sys2Proof
end

