-- ==== Sys2Proof/Syntax.lean ====
section
/-! DEFINITION. The syntax of the nine commands (spec/30_encoding.md R67, spec/opcode_table.json): one constructor
per row of the table. -/

namespace Sys2Proof

/-- The eight wheels of a stage, named a..h (R5, R6); wheel a is the source's "first wheel". -/
inductive Wheel
  | a | b | c | d | e | f | g | h
deriving DecidableEq, Repr

/-- The mnemonics of the opcode map (R67). -/
inductive Mnemonic
  | nop | cfg | key | val | adv | rdpos | cval | cadv | xor
deriving DecidableEq, Repr

/-- A command with its operands: a stage index `k` (R63), a wheel `w` (R64), a data byte or chain length (R65),
the key operand of KEY (R66). A stage index is a number; WellFormed says which ones fit the K field. -/
inductive Instr
  /-- NOP (R131). -/
  | nop
  /-- `CFG #n`: set the chain length (R110). -/
  | cfg (n : Byte)
  /-- `KEY k, key`: re-key stage k from KEYIN (R91). -/
  | key (k : Nat) (keyin : KeyOperand)
  /-- `VAL k`: read stage k's keystream byte (R92). -/
  | val (k : Nat)
  /-- `ADV k`: advance stage k alone (R93). -/
  | adv (k : Nat)
  /-- `RDPOS k, w`: read one position register (R94). -/
  | rdpos (k : Nat) (w : Wheel)
  /-- CVAL: read the chain's keystream byte (R111). -/
  | cval
  /-- CADV: advance the chain once (R112). -/
  | cadv
  /-- `XOR #d`: combine one byte with the chain's keystream byte, then advance the chain (R120). -/
  | xor (d : Byte)
deriving DecidableEq, Repr

/-- The opcode-table row a command belongs to (R67). -/
def Instr.mnemonic : Instr → Mnemonic
  | .nop => .nop
  | .cfg _ => .cfg
  | .key _ _ => .key
  | .val _ => .val
  | .adv _ => .adv
  | .rdpos _ _ => .rdpos
  | .cval => .cval
  | .cadv => .cadv
  | .xor _ => .xor

end Sys2Proof
end

