-- ==== Sys2Proof/WellFormed.lean ====
section
/-! DEFINITION. Well-formed commands: every operand fits its field (spec/30_encoding.md R72: "The assembler refuses
an operand that does not fit its field"). A data byte, a wheel and a key operand fit by their types; a stage index
must be at most 255. R72 does not compare k with NMAX: such a command is encoded, and refused when executed. -/

namespace Sys2Proof

/-- The stage index fits the 8-bit K field (R63, R72). -/
def stageFits (k : Nat) : Bool := k ≤ 255

/-- Every operand of the command fits its field (R72). -/
def Instr.wf : Instr → Bool
  | .nop => true
  | .cfg _ => true
  | .key k _ => stageFits k
  | .val k => stageFits k
  | .adv k => stageFits k
  | .rdpos k _ => stageFits k
  | .cval => true
  | .cadv => true
  | .xor _ => true

end Sys2Proof
end

