-- ==== Sys2Proof/Decode.lean ====
section
/-! DEFINITION. Command decoding (spec/30_encoding.md R60 to R71): total over all 2^32 command words, strict, and
rejecting by name; after it the encoder, written from the field layout of R61 and the opcode map of R67. -/

namespace Sys2Proof

/-- Why a word spells no command (R71). The block reports each as ILLEGAL (spec/60_exceptions.md R141) and does not
tell them apart; the names are for the reader of a rejected word. -/
inductive IllegalWord
  /-- OP is in 0x9..0xF (R69). -/
  | reservedOpcode
  /-- OP is assigned and RSV is not zero (R70). -/
  | nonzeroRsv
  /-- OP is assigned, RSV is zero, and a field the command does not use is not zero (R68). -/
  | nonzeroUnusedField
deriving DecidableEq, Repr

/-! ### Fields of CW (R61 to R65) -/

/-- OP = CW[31:28] (R62). -/
def fieldOp (cw : CommandWord) : BitVec 4 := cw.extractLsb' 28 4

/-- RSV = CW[27:19] (R61, R70). -/
def fieldRsv (cw : CommandWord) : BitVec 9 := cw.extractLsb' 19 9

/-- W = CW[18:16] (R64). -/
def fieldW (cw : CommandWord) : BitVec 3 := cw.extractLsb' 16 3

/-- K = CW[15:8] (R63). -/
def fieldK (cw : CommandWord) : BitVec 8 := cw.extractLsb' 8 8

/-- D = CW[7:0] (R65). -/
def fieldD (cw : CommandWord) : Byte := cw.extractLsb' 0 8

/-- Wheel a..h is index 0..7 (R6). -/
def Wheel.index : Wheel → Nat
  | .a => 0
  | .b => 1
  | .c => 2
  | .d => 3
  | .e => 4
  | .f => 5
  | .g => 6
  | .h => 7

/-- The wheel of an index, none above 7 (R6). -/
def Wheel.ofIndex? : Nat → Option Wheel
  | 0 => some .a
  | 1 => some .b
  | 2 => some .c
  | 3 => some .d
  | 4 => some .e
  | 5 => some .f
  | 6 => some .g
  | 7 => some .h
  | _ => none

/-- The wheel a W field names; all 8 values are legal (R64), so the default is never taken. -/
def Wheel.ofField (w : BitVec 3) : Wheel := (Wheel.ofIndex? w.toNat).getD .a

/-! ### The decoder (R68) -/

/-- One match/mask row of R68. -/
structure DecodeRow where
  mnemonic : Mnemonic
  pattern : CommandWord
  mask : CommandWord
deriving DecidableEq, Repr

/-- The match/mask pairs of R68, row for row. -/
def decodeTable : List DecodeRow :=
  [ ⟨.nop,   0x00000000#32, 0xFFFFFFFF#32⟩,
    ⟨.cfg,   0x10000000#32, 0xFFFFFF00#32⟩,
    ⟨.key,   0x20000000#32, 0xFFFF00FF#32⟩,
    ⟨.val,   0x30000000#32, 0xFFFF00FF#32⟩,
    ⟨.adv,   0x40000000#32, 0xFFFF00FF#32⟩,
    ⟨.rdpos, 0x50000000#32, 0xFFF800FF#32⟩,
    ⟨.cval,  0x60000000#32, 0xFFFFFFFF#32⟩,
    ⟨.cadv,  0x70000000#32, 0xFFFFFFFF#32⟩,
    ⟨.xor,   0x80000000#32, 0xFFFFFF00#32⟩ ]

/-- A word is the command named in a row exactly when `(CW & mask) == match` (R68). -/
def rowMatches (cw : CommandWord) (r : DecodeRow) : Bool := cw &&& r.mask == r.pattern

/-- The command of a row, its operands taken from the fields R67 names; KEYIN is read only by KEY
(spec/43_control.md R130). -/
def instrOfRow (m : Mnemonic) (cw : CommandWord) (keyin : KeyOperand) : Instr :=
  match m with
  | .nop => .nop
  | .cfg => .cfg (fieldD cw)
  | .key => .key (fieldK cw).toNat keyin
  | .val => .val (fieldK cw).toNat
  | .adv => .adv (fieldK cw).toNat
  | .rdpos => .rdpos (fieldK cw).toNat (Wheel.ofField (fieldW cw))
  | .cval => .cval
  | .cadv => .cadv
  | .xor => .xor (fieldD cw)

/-- The name of a rejection (R71). -/
def illegalKind (cw : CommandWord) : IllegalWord :=
  if 0x9#4 ≤ fieldOp cw then .reservedOpcode
  else if fieldRsv cw ≠ 0#9 then .nonzeroRsv
  else .nonzeroUnusedField

/-- Decoding of a command (CW, KEYIN), total over all words (R68, R71). -/
def decode (cw : CommandWord) (keyin : KeyOperand) : Except IllegalWord Instr :=
  match decodeTable.find? (rowMatches cw) with
  | some r => .ok (instrOfRow r.mnemonic cw keyin)
  | none => .error (illegalKind cw)

/-- The command an encoding of `nbits` bits stands for, as spec/opcode_table.json numbers them: bits 31..0 are CW and
bits 95..32 are KEYIN, which the table gives no bits. -/
def decodeTableWord (nbits w : Nat) : Option Instr :=
  let bits := w % 2 ^ nbits
  match decode (BitVec.ofNat 32 bits) (BitVec.ofNat 64 (bits / 2 ^ 32)) with
  | .ok i => some i
  | .error _ => none

/-! ### The encoder (R61, R66, R67) -/

/-- CW = OP, RSV, W, K, D, most significant first, with RSV = 0 (R61, R70). -/
def packFields (op : BitVec 4) (w : BitVec 3) (k d : BitVec 8) : CommandWord :=
  op ++ 0#9 ++ w ++ k ++ d

/-- The opcode number of a mnemonic (R67). -/
def Mnemonic.op : Mnemonic → BitVec 4
  | .nop => 0x0#4
  | .cfg => 0x1#4
  | .key => 0x2#4
  | .val => 0x3#4
  | .adv => 0x4#4
  | .rdpos => 0x5#4
  | .cval => 0x6#4
  | .cadv => 0x7#4
  | .xor => 0x8#4

/-- The stage index in the K field (R63). -/
def stageField (k : Nat) : BitVec 8 := BitVec.ofNat 8 k

/-- The wheel index in the W field (R64). -/
def wheelField (w : Wheel) : BitVec 3 := BitVec.ofNat 3 w.index

/-- The command word of a well-formed command (R61, R67). -/
def encodeWord (i : Instr) : CommandWord :=
  match i with
  | .nop => packFields Mnemonic.nop.op 0#3 0#8 0#8
  | .cfg n => packFields Mnemonic.cfg.op 0#3 0#8 n
  | .key k _ => packFields Mnemonic.key.op 0#3 (stageField k) 0#8
  | .val k => packFields Mnemonic.val.op 0#3 (stageField k) 0#8
  | .adv k => packFields Mnemonic.adv.op 0#3 (stageField k) 0#8
  | .rdpos k w => packFields Mnemonic.rdpos.op (wheelField w) (stageField k) 0#8
  | .cval => packFields Mnemonic.cval.op 0#3 0#8 0#8
  | .cadv => packFields Mnemonic.cadv.op 0#3 0#8 0#8
  | .xor d => packFields Mnemonic.xor.op 0#3 0#8 d

/-- The key operand presented with a command: KEYIN for KEY; any value would do for the others (R130), and the
encoder presents zero. -/
def encodeKeyin (i : Instr) : KeyOperand :=
  match i with
  | .key _ keyin => keyin
  | .nop => 0#64
  | .cfg _ => 0#64
  | .val _ => 0#64
  | .adv _ => 0#64
  | .rdpos _ _ => 0#64
  | .cval => 0#64
  | .cadv => 0#64
  | .xor _ => 0#64

/-- The words of a well-formed command: CW and KEYIN (R60). -/
def encode (i : Instr) : CommandWord × KeyOperand := (encodeWord i, encodeKeyin i)

end Sys2Proof
end

