-- ==== Sys2Proof/Machine/State.lean ====
section
/-! DEFINITION. The state of the block (spec/10_state.md R20 to R30) as plain data, the reasons a step can stop, and
the state after reset (spec/70_reset_and_hazards.md R170). Beside the block's own state (POS, KEYED, N) stand the
wheel tables it reads (R40, a parameter of the spec), the host's side of the command port (the inputs it will present,
and its index pc, R29), and the response last returned (R28). -/

namespace Sys2Proof.Machine

/-- The eight 8-bit position registers of one stage, POS[k].a to POS[k].h (R21, R6). -/
structure Positions where
  a : Byte
  b : Byte
  c : Byte
  d : Byte
  e : Byte
  f : Byte
  g : Byte
  h : Byte
deriving DecidableEq, Repr

/-- RSP_ST (spec/60_exceptions.md R140); the codes 5 to 7 are never produced, so they have no constructor. -/
inductive Status
  | ok
  | illegal
  | invalidConfig
  | badStage
  | notKeyed
deriving DecidableEq, Repr

/-- The response of one command: RSP_ST, RSP_DATA, RSP_FLAG (R4, R28). -/
structure Response where
  status : Status
  data : Byte
  flag : Bool
deriving DecidableEq, Repr

/-- What the host does at the port between two steps: it presents a command (R4, R130), or it asserts the reset
input (R170: "between commands at any time"). -/
inductive HostInput
  /-- A command word with the key operand presented beside it; only KEY reads the operand (R130). -/
  | command (cw : CommandWord) (keyin : KeyOperand)
  /-- The reset input (R170). -/
  | reset
deriving DecidableEq, Repr

/-- The wheel table space of all stages (R40(a)) as address and byte pairs in one canonical form (`Memory.wf` of
Machine/Ops.lean). The address of an entry is the informative flat one of R48 (`tableAddress`). -/
abbrev Memory := List Host.Cell

/-- The machine. Every field is data. -/
structure State where
  /-- POS and KEYED of the stages 0..NMAX-1 in index order (R21, R22); NMAX is the length (R7). A stage that KEY has
  not written since reset is `none`: its KEYED bit is 0 and its positions hold no value ("A Lean model represents
  an unwritten stage as `none`, never as 0", R21). A stage that KEY has written is `some p`: its KEYED bit is 1. -/
  stages : List (Option Positions)
  /-- N, the chain-length register (R23). -/
  n : Byte
  /-- TS, the contents of the wheel tables (R8, R40): the host's, read-only to the block (R44). -/
  memory : Memory
  /-- The host's side: what it will present at the port, first input first (R4, R52). The model's own field. -/
  pending : List HostInput
  /-- The host's side: `pc`, the index of the current command in its sequence (R12, R29). -/
  pc : Nat
  /-- The output: the response of the last command, none when no response has been returned since reset (R28). -/
  response : Option Response
deriving DecidableEq, Repr

/-- The reasons a step faults. None is reachable from a state that meets the machine's invariant (Safety.lean). -/
inductive Fault
  /-- A wheel table would be read at an index outside 0..M[w]-1 (R42, R43; treatment U7 of
  spec/93_implementation_defined.md: "an out-of-range read faults and never returns a value"). Raised by VAL, CVAL
  and XOR. Safe. -/
  | tableIndexOutOfRange
  /-- The successor ROM would be asked for an index outside 0..M[w]-1 (R25: "never asked"). Raised by ADV and CADV.
  Safe. -/
  | successorIndexOutOfRange
  /-- N holds a value outside 1..NMAX (R23: "N only ever holds legal values"). Raised by CVAL, CADV and XOR. Safe. -/
  | chainLengthOutOfRange
deriving DecidableEq, Repr

/-- The reasons a step is refused by the model. (The block's own refusals are responses, R140, not these.) -/
inductive Refusal
  /-- Raised by `exec` alone, for an instruction without a meaning; no arm raises it now. Safe. -/
  | notModelled (mnemonic : String)
deriving DecidableEq, Repr

/-- The machine right after reset (R170): no stage keyed, N = 1, no response outstanding; nothing listed in memory,
nothing presented. NMAX is `Config.resetStages` (DESIGN CHOICE, notes/assumptions/1.md); the tables read as
`Config.unlistedTableByte` (DESIGN CHOICE, notes/assumptions/2.md). -/
def State.reset : State where
  stages := List.replicate Config.resetStages none
  n := 0x01#8
  memory := []
  pending := []
  pc := 0
  response := none

end Sys2Proof.Machine
end

