-- ==== Sys2Proof/Machine/Ops.lean ====
section
/-! DEFINITION. The named operations of the machine: the wheels' constants (spec/00_scope.md R5, R9), the position
registers and the chain (spec/10_state.md), the wheel tables (spec/20_memory.md), the responses and the one shared
error report (spec/60_exceptions.md R140 to R146), and the reset of the block (spec/70_reset_and_hazards.md R170). -/

namespace Sys2Proof

/-! ### The wheels (R5, R48) -/

/-- The eight wheels in index order (R5). -/
def Wheel.all : List Wheel := [.a, .b, .c, .d, .e, .f, .g, .h]

/-- M[w] (R5). -/
def Wheel.modulus : Wheel → Nat
  | .a => 256
  | .b => 253
  | .c => 251
  | .d => 249
  | .e => 247
  | .f => 245
  | .g => 241
  | .h => 239

/-- The flat offset of table w in a table set: the running sums of M (R48, informative). -/
def Wheel.offset : Wheel → Nat
  | .a => 0
  | .b => 256
  | .c => 509
  | .d => 760
  | .e => 1009
  | .f => 1256
  | .g => 1501
  | .h => 1742

end Sys2Proof

namespace Sys2Proof.Machine

/-- The bytes of one table set: sum(M) (R9). -/
def tableSetBytes : Nat := 1981

/-- P, the period of one stage (R9). -/
def stagePeriod : Nat := 14109497151713483520

/-! ### Position registers (R21) -/

/-- POS[k][w] of one stage. -/
def Positions.get (p : Positions) (w : Wheel) : Byte :=
  match w with
  | .a => p.a
  | .b => p.b
  | .c => p.c
  | .d => p.d
  | .e => p.e
  | .f => p.f
  | .g => p.g
  | .h => p.h

/-- The eight registers written together, register w with `f w`. -/
def Positions.ofFn (f : Wheel → Byte) : Positions :=
  ⟨f .a, f .b, f .c, f .d, f .e, f .f, f .g, f .h⟩

/-- The invariant of R21 on one stage: every position is below its wheel's modulus. -/
def Positions.inRange (p : Positions) : Bool :=
  Wheel.all.all fun w => decide ((p.get w).toNat < w.modulus)

/-! ### Stages and the chain (R21 to R24) -/

/-- NMAX, the number of physical stages (R7). -/
def State.nmax (s : State) : Nat := s.stages.length

/-- POS[k], none where it holds no value (R21) or where there is no stage k. -/
def State.pos (s : State) (k : Nat) : Option Positions := (s.stages[k]?).getD none

/-- KEYED[k] (R22). -/
def State.keyed (s : State) (k : Nat) : Bool := (s.pos k).isSome

/-- `for w in 0..7: POS[k][w] <- p[w]` and `KEYED[k] <- 1` (R91); on a keyed stage the bit stays 1. -/
def State.setPos (s : State) (k : Nat) (p : Positions) : State :=
  { s with stages := s.stages.set k (some p) }

/-- N is in 1..NMAX (R23). -/
def State.chainLegal (s : State) : Bool := decide (1 ≤ s.n.toNat ∧ s.n.toNat ≤ s.nmax)

/-- The positions of a list of stages, none if one of them is not keyed. -/
def keyedPositions : List (Option Positions) → Option (List Positions)
  | [] => some []
  | none :: _ => none
  | some p :: rest => (keyedPositions rest).map (p :: ·)

/-- The positions of the active stages 0..N-1 (R24), none if KEYED[k] = 0 for some k < N (R144). -/
def State.chain (s : State) : Option (List Positions) := keyedPositions (s.stages.take s.n.toNat)

/-- The stages 0..N-1 written together; the stages from N on are untouched (R101). -/
def State.setChain (s : State) (ps : List Positions) : State :=
  { s with stages := ps.map some ++ s.stages.drop ps.length }

/-- N <- n (R110). -/
def State.setN (s : State) (n : Byte) : State := { s with n := n }

/-! ### The wheel tables (R40 to R48) -/

/-- The canonical form of memory: addresses strictly rising, and no entry that equals what an unlisted address
reads as. -/
abbrev Memory.wf (m : Memory) : Prop :=
  (m.map Prod.fst).Pairwise (· < ·) ∧ ∀ c ∈ m, c.2 ≠ Config.unlistedTableByte

/-- The byte at an address. -/
def Memory.read : Memory → Nat → Byte
  | [], _ => Config.unlistedTableByte
  | (x, v) :: rest, addr => if x = addr then v else Memory.read rest addr

/-- The listing of one byte before `rest`, left out when it equals what an unlisted address reads as. -/
def Memory.consCell (addr : Nat) (v : Byte) (rest : Memory) : Memory :=
  if v = Config.unlistedTableByte then rest else (addr, v) :: rest

/-- The byte at an address replaced, the canonical form kept. The block never writes a table (R44): this is the
host's, when it connects one (`State.connectByte`, `State.connectTable`, `State.connectTables`). -/
def Memory.write : Memory → Nat → Byte → Memory
  | [], addr, v => Memory.consCell addr v []
  | (x, b) :: rest, addr, v =>
    if addr < x then Memory.consCell addr v ((x, b) :: rest)
    else if addr = x then Memory.consCell addr v rest
    else (x, b) :: Memory.write rest addr v

/-- The address of entry i of table w of stage k: stage k's table set, then the flat offset of R48. The layout is
not observable (R41; notes/assumptions/3.md). -/
def tableAddress (k : Nat) (w : Wheel) (i : Nat) : Nat := k * tableSetBytes + w.offset + i

/-- `TableRead(k, w, i)` on its domain k < NMAX, i < M[w] (R42): the block's only memory read. Its callers check
the domain (`onIndexDomain`). -/
def tableRead (m : Memory) (k : Nat) (w : Wheel) (i : Byte) : Byte :=
  m.read (tableAddress k w i.toNat)

/-- One wheel table: exactly M[w] bytes, so that a table of another length cannot be written down (R8, R147). -/
abbrev WheelTable (w : Wheel) := Vector Byte w.modulus

/-- A WheelTableSet: one table for each of the eight wheels (R8). -/
abbrev TableSet := (w : Wheel) → WheelTable w

/-- Bytes replaced one after the other. -/
def Memory.writeAll (m : Memory) (cells : List Host.Cell) : Memory :=
  cells.foldl (fun m c => m.write c.1 c.2) m

/-- The addresses and bytes of table w of stage k. -/
def tableCells (k : Nat) (w : Wheel) (table : WheelTable w) : List Host.Cell :=
  (List.finRange w.modulus).map fun (i : Fin w.modulus) => (tableAddress k w i, table[i])

/-- The host supplies entry i of table w of stage k before a run (R173 step 1). The stage exists and i is in 0..M[w]-1
by the types, so no entry falls outside its table (R147). No step does this: TS is constant during a run (R55;
notes/assumptions/2.md). -/
def State.connectByte (s : State) (k : Fin s.nmax) (w : Wheel) (i : Fin w.modulus) (v : Byte) : State :=
  { s with memory := s.memory.write (tableAddress k w i) v }

/-- The host connects a table to wheel w of stage k before a run (R173 step 1). A table whose length is not M[w] cannot
be connected, and there is no error for it: it has no value of this type (R147). -/
def State.connectTable (s : State) (k : Fin s.nmax) (w : Wheel) (table : WheelTable w) : State :=
  { s with memory := s.memory.writeAll (tableCells k w table) }

/-- The host connects the whole binding TS, a table set for every stage of the block (R8). Two stages share a set when
`ts` gives them the same one. -/
def State.connectTables (s : State) (ts : Fin s.nmax → TableSet) : State :=
  { s with memory := s.memory.writeAll <|
      (List.finRange s.nmax).flatMap fun (k : Fin s.nmax) => Wheel.all.flatMap fun w => tableCells k w (ts k w) }

/-! ### Responses and errors (R28, R140 to R146) -/

/-- The code of a status on RSP_ST[2:0] (R140). -/
def Status.code : Status → BitVec 3
  | .ok => 0#3
  | .illegal => 1#3
  | .invalidConfig => 2#3
  | .badStage => 3#3
  | .notKeyed => 4#3

/-- `respond(st, data, flag)` (R12). -/
def State.respond (s : State) (st : Status) (data : Byte) (flag : Bool) : State :=
  { s with response := some ⟨st, data, flag⟩ }

/-- What an operation answers. -/
abbrev Result := Host.Outcome State Fault Refusal

/-- A command that completes: `respond(OK, data, flag)`. -/
def completes (s : State) (data : Byte) (flag : Bool) : Result := .next (s.respond .ok data flag)

/-- `raise Error(code)` (R12, R146): the block's one way to report an error. The response is (code, 0x00, 0), no state
is written, and the host's next command follows; there is no trap, no saved state and no return (R149). -/
def raiseError (code : Status) (s : State) : Result := .next (s.respond code 0x00#8 false)

/-! ### The command port (R4, R29, R130, R170) -/

/-- The host presents its next input: it leaves the host's sequence. -/
def State.present (s : State) (rest : List HostInput) : State := { s with pending := rest }

/-- The host presents a command: its pc advances by one, whatever the command answers (R29, R130). -/
def State.presentCommand (s : State) (rest : List HostInput) : State :=
  { s with pending := rest, pc := s.pc + 1 }

/-- Reset (R170): every POS to no value, every KEYED to 0, N to 1, and no response. The tables are left alone (R171),
and the host's pc and sequence are the host's (notes/assumptions/5.md). -/
def State.resetBlock (s : State) : State :=
  { s with stages := List.replicate s.nmax none, n := 0x01#8, response := none }

end Sys2Proof.Machine
end

