-- ==== Sys2Proof/Machine/Flags.lean ====
section
/-! DEFINITION. The successor function and the only flag of the block, RSP_FLAG (spec/10_state.md R25, R28): the wrap
bit of one stage's advance (spec/40_stage.md R80) and the carry out of a chain's advance (spec/41_cascade.md R101).
Both are returned values; no flag is stored (R27). -/

namespace Sys2Proof.Machine

/-- The next position of wheel w: the 8-bit wrapping increment for wheel a, SUCC(w, i) = (i + 1) mod M[w] for the
others (R25). -/
def succ (w : Wheel) (i : Byte) : Byte :=
  match w with
  | .a => i + 1#8
  | _ => BitVec.ofNat 8 ((i.toNat + 1) % w.modulus)

/-- The positions after ADVANCE_STAGE: every wheel reads and writes its own register (R80). -/
def Positions.advanced (p : Positions) : Positions := Positions.ofFn fun w => succ w (p.get w)

/-- The wrap bit of ADVANCE_STAGE: the new value of wheel a is 0 (R80). -/
def wrapped (new : Positions) : Bool := new.a == 0#8

/-- The carry discipline from a stage on, with the carry that enters it: a stage the carry reaches advances and its
wrap bit is the next carry; from the first stage without a carry on, nothing moves (R101). Answers the new positions
and the carry out. -/
def advanceFrom : Bool → List Positions → List Positions × Bool
  | carry, [] => ([], carry)
  | true, p :: rest =>
    let r := advanceFrom (wrapped p.advanced) rest
    (p.advanced :: r.1, r.2)
  | false, p :: rest =>
    let r := advanceFrom false rest
    (p :: r.1, r.2)

/-- CASCADE_ADVANCE: stage 0 advances unconditionally (c[0] = 1, R101). -/
def cascadeAdvance (ps : List Positions) : List Positions × Bool := advanceFrom true ps

end Sys2Proof.Machine
end

