-- ==== Sys2Proof/Machine/Operands.lean ====
section
/-! DEFINITION. The operands of the commands: the key bytes and their mapping to positions (spec/30_encoding.md R66,
spec/40_stage.md R82), the stage operand with its checks (R90), the chain with its checks (spec/41_cascade.md R111,
R112), and the keystream bytes (R81, R100). -/

namespace Sys2Proof.Machine

/-! ### The key operand (R66, R82) -/

/-- key[i] = KEYIN[8i+7 : 8i] for the wheel of index i (R66). -/
def keyByte (keyin : KeyOperand) (w : Wheel) : Byte := keyin.extractLsb' (8 * w.index) 8

/-- KEYSCHED: wheel a takes key[0] unreduced, wheel w takes key[w] mod M[w] (R82). -/
def keySchedule (keyin : KeyOperand) : Positions :=
  Positions.ofFn fun w =>
    match w with
    | .a => keyByte keyin .a
    | w => BitVec.ofNat 8 ((keyByte keyin w).toNat % w.modulus)

/-! ### Keystream bytes (R81, R100) -/

/-- VALUE(k) of positions p: the xor of the eight table bytes (R81). -/
def stageValue (m : Memory) (k : Nat) (p : Positions) : Byte :=
  Wheel.all.foldl (fun v w => v ^^^ tableRead m k w (p.get w)) 0x00#8

/-- The xor of the values of a list of stages that starts at stage k. -/
def chainValueFrom (m : Memory) : Nat → List Positions → Byte
  | _, [] => 0x00#8
  | k, p :: rest => stageValue m k p ^^^ chainValueFrom m (k + 1) rest

/-- CASCADE_VALUE: the xor of VALUE(k) over the chain's stages (R100). -/
def cascadeValue (m : Memory) (ps : List Positions) : Byte := chainValueFrom m 0 ps

/-! ### The checks of the commands (R90, R145) -/

/-- The stage operand of KEY: k >= NMAX is refused with BAD_STAGE (R90, R143). -/
def onStage (k : Nat) (s : State) (body : Result) : Result :=
  if s.nmax ≤ k then raiseError .badStage s else body

/-- The stage operand of VAL, ADV and RDPOS: BAD_STAGE first, then NOT_KEYED (R90, R145). -/
def onKeyedStage (k : Nat) (s : State) (body : Positions → Result) : Result :=
  onStage k s <|
    match s.pos k with
    | none => raiseError .notKeyed s
    | some p => body p

/-- The active stages of CVAL, CADV and XOR: NOT_KEYED if one of them is not keyed (R144). An N outside 1..NMAX,
which R23 rules out, faults. -/
def onKeyedChain (s : State) (body : List Positions → Result) : Result :=
  if s.chainLegal then
    match s.chain with
    | none => raiseError .notKeyed s
    | some ps => body ps
  else .fault .chainLengthOutOfRange

/-- The domain of a table read or of a successor: every index is below its modulus (R42, R25), which R21 ensures;
outside it the step faults with the reason given. -/
def onIndexDomain (ps : List Positions) (reason : Fault) (body : Result) : Result :=
  if ps.all Positions.inRange then body else .fault reason

end Sys2Proof.Machine
end

