-- ==== Sys2Proof/Machine/Cascade.lean ====
section
/-! DEFINITION. The cascade commands CFG, CVAL and CADV (spec/41_cascade.md). -/

namespace Sys2Proof.Machine

/-- `CFG #n` (R110): N <- n for 1 <= n <= NMAX, INVALID_CONFIG otherwise. -/
def execCfg (n : Byte) (s : State) : Result :=
  if n = 0#8 ∨ s.nmax < n.toNat then raiseError .invalidConfig s
  else completes (s.setN n) 0x00#8 false

/-- CVAL (R111): CASCADE_VALUE, no state written. -/
def execCval (s : State) : Result :=
  onKeyedChain s fun ps =>
    onIndexDomain ps .tableIndexOutOfRange (completes s (cascadeValue s.memory ps) false)

/-- CADV (R112): CASCADE_ADVANCE; the flag is the carry out. -/
def execCadv (s : State) : Result :=
  onKeyedChain s fun ps =>
    onIndexDomain ps .successorIndexOutOfRange
      (completes (s.setChain (cascadeAdvance ps).1) 0x00#8 (cascadeAdvance ps).2)

end Sys2Proof.Machine
end

