-- ==== Sys2Proof/Machine/Control.lean ====
section
/-! DEFINITION. The NOP command (spec/43_control.md R131). -/

namespace Sys2Proof.Machine

/-- NOP: `respond(OK, 0x00, 0)`; it reads and writes no state (R131). -/
def execNop (s : State) : Result := completes s 0x00#8 false

end Sys2Proof.Machine
end

