-- ==== Sys2Proof/Machine/Stage.lean ====
section
/-! DEFINITION. The stage commands KEY, VAL, ADV and RDPOS (spec/40_stage.md). They do not use N (R24). -/

namespace Sys2Proof.Machine

/-- `KEY k, key` (R91): POS[k] takes the key mapping, KEYED[k] is set. -/
def execKey (k : Nat) (keyin : KeyOperand) (s : State) : Result :=
  onStage k s (completes (s.setPos k (keySchedule keyin)) 0x00#8 false)

/-- `VAL k` (R92): VALUE(k), no state written. -/
def execVal (k : Nat) (s : State) : Result :=
  onKeyedStage k s fun p =>
    onIndexDomain [p] .tableIndexOutOfRange (completes s (stageValue s.memory k p) false)

/-- `ADV k` (R93): one step of stage k alone; the flag is its wrap bit. -/
def execAdv (k : Nat) (s : State) : Result :=
  onKeyedStage k s fun p =>
    onIndexDomain [p] .successorIndexOutOfRange
      (completes (s.setPos k p.advanced) 0x00#8 (wrapped p.advanced))

/-- `RDPOS k, w` (R94): the position register itself, no state written. -/
def execRdpos (k : Nat) (w : Wheel) (s : State) : Result :=
  onKeyedStage k s fun p => completes s (p.get w) false

end Sys2Proof.Machine
end

