-- ==== Sys2Proof/Machine/Stream.lean ====
section
/-! DEFINITION. The stream command XOR (spec/42_stream.md). -/

namespace Sys2Proof.Machine

/-- `XOR #d` (R120): the data byte with the chain's value before the advance, then the advance; the flag is the carry
out. -/
def execXor (d : Byte) (s : State) : Result :=
  onKeyedChain s fun ps =>
    onIndexDomain ps .tableIndexOutOfRange
      (completes (s.setChain (cascadeAdvance ps).1) (d ^^^ cascadeValue s.memory ps) (cascadeAdvance ps).2)

end Sys2Proof.Machine
end

