-- ==== Sys2Proof/Machine/Dispatch.lean ====
section
/-! DEFINITION. The dispatch: one arm per constructor of Instr, each one direct call of a meaning
(spec/43_control.md R130: "run row's command rule"). -/

namespace Sys2Proof.Machine

def exec (i : Instr) (s : State) : Host.Outcome State Fault Refusal :=
  match i with
  | .nop => Sys2Proof.Machine.execNop s
  | .cfg n => Sys2Proof.Machine.execCfg n s
  | .key k keyin => Sys2Proof.Machine.execKey k keyin s
  | .val k => Sys2Proof.Machine.execVal k s
  | .adv k => Sys2Proof.Machine.execAdv k s
  | .rdpos k w => Sys2Proof.Machine.execRdpos k w s
  | .cval => Sys2Proof.Machine.execCval s
  | .cadv => Sys2Proof.Machine.execCadv s
  | .xor d => Sys2Proof.Machine.execXor d s

end Sys2Proof.Machine
end

