-- ==== Sys2Proof/Machine/Step.lean ====
section
/-! DEFINITION. One step: the block takes the host's next input (spec/43_control.md R130,
spec/70_reset_and_hazards.md R170, R172). -/

namespace Sys2Proof.Machine

/-- STEP (R130). A presented command is decoded; a word that matches no row answers ILLEGAL (R141), any other runs
its command's rule. The reset input is a step of its own (R170; treatment U23). With nothing presented the block
waits (R172; notes/assumptions/6.md). -/
def step (s : State) : Host.Outcome State Fault Refusal :=
  match s.pending with
  | [] => .next s
  | .reset :: rest => .next (s.present rest).resetBlock
  | .command cw keyin :: rest =>
    match decode cw keyin with
    | .ok i => exec i (s.presentCommand rest)
    | .error _ => raiseError .illegal (s.presentCommand rest)

/-- The state in which the host presents the command (CW, KEYIN) of these bits next (bits 31..0 are CW, 95..32 are
KEYIN): the block fetches nothing (R52), so the place a command is taken from is the head of the host's sequence
(notes/assumptions/4.md). -/
def State.withFetchWord (s : State) (nbits w : Nat) : State :=
  let bits := w % 2 ^ nbits
  { s with pending := .command (BitVec.ofNat 32 bits) (BitVec.ofNat 64 (bits / 2 ^ 32)) :: s.pending }

end Sys2Proof.Machine
end

