-- ==== Sys2Proof/Machine/Run.lean ====
section
/-! DEFINITION. Command sequences: how a host presents commands, the pseudo-instructions and their expansions
(spec/30_encoding.md R73), and runs with the responses they return (spec/42_stream.md R121). -/

namespace Sys2Proof.Machine

/-- The host input that presents a command: its CW and KEYIN (R60). -/
def presentation (i : Instr) : HostInput := .command (encodeWord i) (encodeKeyin i)

/-- The host places a command sequence at the port, before anything it still holds back. -/
def State.queue (s : State) (is : List Instr) : State :=
  { s with pending := is.map presentation ++ s.pending }

/-! ### The pseudo-instructions (R73) -/

/-- `PROCESS {d0, ..., dL-1}`: one XOR per byte, in order; nothing for L = 0. -/
def processCommands (ds : List Byte) : List Instr := ds.map .xor

/-- `ENCRYPT {...}` is the same as `PROCESS {...}`. -/
def encryptCommands (ds : List Byte) : List Instr := processCommands ds

/-- `DECRYPT {...}` is the same as `PROCESS {...}`. -/
def decryptCommands (ds : List Byte) : List Instr := processCommands ds

/-- `KEY k, key_k`, `KEY k+1, key_(k+1)`, ... in order. -/
def keyCommandsFrom (k : Nat) : List KeyOperand → List Instr
  | [] => []
  | key :: rest => .key k key :: keyCommandsFrom (k + 1) rest

/-- `CHAIN n, (key_0, ..., key_(n-1))`: CFG #n, then KEY 0 to KEY n-1; none when the number of keys is not n. -/
def chainCommands (n : Byte) (keys : List KeyOperand) : Option (List Instr) :=
  if keys.length = n.toNat then some (.cfg n :: keyCommandsFrom 0 keys) else none

/-- `SKIP L`: L times CADV. -/
def skipCommands (l : Nat) : List Instr := List.replicate l .cadv

/-! ### Runs -/

/-- `t` steps from a state, with the responses returned by them in order; none if a step is not answered by a next
state. -/
def transcript : Nat → State → Option (List Response × State)
  | 0, s => some ([], s)
  | t + 1, s =>
    match step s with
    | .next s' => (transcript t s').map fun r => (s'.response.toList ++ r.1, r.2)
    | .fault _ => none
    | .refused _ => none

/-- One stage's positions after t ADVANCE_STAGEs (R84). -/
def advancedStage : Nat → Positions → Positions
  | 0, p => p
  | t + 1, p => advancedStage t p.advanced

end Sys2Proof.Machine
end

