-- ==== Sys2Proof/Machine/Assembler.lean ====
section
/-! DEFINITION. The assembler syntax of spec/30_encoding.md R72: one command per line, read from its characters; the
written form of the pseudo-instructions (R73); and the disassembler. A line is a list of characters. Notation only: no
step of the machine uses this file. What R72 leaves open of the notation is in notes/assumptions/12.md. -/

namespace Sys2Proof.Machine

/-! ### Lexing -/

/-- A token of a line. -/
inductive Token
  | word (cs : List Char)
  | comma
  | hash
  | openBrace
  | closeBrace
  | other (c : Char)
deriving DecidableEq, Repr

/-- The word read so far, if there is one. -/
def wordToken (acc : List Char) : List Token :=
  match acc with
  | [] => []
  | c :: cs => [.word (c :: cs).reverse]

/-- The token of a character that ends a word, none for white space. The braces are written by their codes, 123 and
125. -/
def separatorToken (c : Char) : List Token :=
  if c = ' ' ∨ c = '\t' ∨ c = '\r' then []
  else if c = ',' then [.comma]
  else if c = '#' then [.hash]
  else if c.toNat = 123 then [.openBrace]
  else if c.toNat = 125 then [.closeBrace]
  else [.other c]

/-- The tokens of a line; `;` starts a comment. `acc` is the word read so far, last character first. -/
def lexFrom (acc : List Char) : List Char → List Token
  | [] => wordToken acc
  | c :: cs =>
    if c = ';' then wordToken acc
    else if c.isAlphanum then lexFrom (c :: acc) cs
    else wordToken acc ++ separatorToken c ++ lexFrom [] cs

/-- The tokens of a line. -/
def lexLine (line : List Char) : List Token := lexFrom [] line

/-! ### Numbers, wheels, mnemonics -/

/-- The value of a digit in base 16, decimal digits included. -/
def digitValue (c : Char) : Option Nat :=
  if '0' ≤ c ∧ c ≤ '9' then some (c.toNat - 48)
  else if 'a' ≤ c ∧ c ≤ 'f' then some (c.toNat - 87)
  else if 'A' ≤ c ∧ c ≤ 'F' then some (c.toNat - 55)
  else none

/-- The number of a list of digits in a base, after the value read so far. -/
def digitsValue (base : Nat) (acc : Nat) : List Char → Option Nat
  | [] => some acc
  | c :: cs =>
    match digitValue c with
    | none => none
    | some d => if d < base then digitsValue base (base * acc + d) cs else none

/-- A number: decimal, or hexadecimal with a `0x` prefix. -/
def parseNumber (cs : List Char) : Option Nat :=
  match cs with
  | [] => none
  | '0' :: 'x' :: d :: ds => digitsValue 16 0 (d :: ds)
  | c :: cs => digitsValue 10 0 (c :: cs)

/-- A number that fits below a bound: "The assembler refuses an operand that does not fit its field". -/
def parseBelow (bound : Nat) (cs : List Char) : Option Nat :=
  match parseNumber cs with
  | none => none
  | some v => if v < bound then some v else none

/-- A data byte or chain length. -/
def parseByte (cs : List Char) : Option Byte := (parseBelow 256 cs).map (BitVec.ofNat 8)

/-- A stage index: at most 255; not compared with NMAX. -/
def parseStage (cs : List Char) : Option Nat := parseBelow 256 cs

/-- A key value of at most 64 bits. -/
def parseKey (cs : List Char) : Option KeyOperand := (parseBelow (2 ^ 64) cs).map (BitVec.ofNat 64)

/-- A wheel: 0..7 or a letter a..h. -/
def parseWheel (cs : List Char) : Option Wheel :=
  match cs with
  | ['a'] => some .a
  | ['b'] => some .b
  | ['c'] => some .c
  | ['d'] => some .d
  | ['e'] => some .e
  | ['f'] => some .f
  | ['g'] => some .g
  | ['h'] => some .h
  | cs => (parseNumber cs).bind Wheel.ofIndex?

/-- The spelling of a mnemonic. -/
def spelling : Mnemonic → List Char
  | .nop => ['N', 'O', 'P']
  | .cfg => ['C', 'F', 'G']
  | .key => ['K', 'E', 'Y']
  | .val => ['V', 'A', 'L']
  | .adv => ['A', 'D', 'V']
  | .rdpos => ['R', 'D', 'P', 'O', 'S']
  | .cval => ['C', 'V', 'A', 'L']
  | .cadv => ['C', 'A', 'D', 'V']
  | .xor => ['X', 'O', 'R']

/-- The nine mnemonics (R67). -/
def allMnemonics : List Mnemonic := [.nop, .cfg, .key, .val, .adv, .rdpos, .cval, .cadv, .xor]

/-- The mnemonic a word spells; mnemonics are case-insensitive. -/
def parseMnemonic (cs : List Char) : Option Mnemonic :=
  allMnemonics.find? fun m => spelling m == cs.map Char.toUpper

/-! ### Lines -/

/-- The bytes of a key list up to its closing brace, which ends the line. -/
def parseByteList : List Token → Option (List Byte)
  | [.word cs, .closeBrace] => (parseByte cs).map fun b => [b]
  | .word cs :: .comma :: rest =>
    match parseByte cs, parseByteList rest with
    | some b, some bs => some (b :: bs)
    | _, _ => none
  | _ => none

/-- KEYIN with key[i] = b_i (R66): the first byte is the least significant lane. -/
def keyOfBytes (bs : List Byte) : KeyOperand :=
  bs.foldr (fun b acc => (acc <<< 8) ||| b.setWidth 64) 0#64

/-- The operand of KEY after `KEY k,`: a value, or a list of exactly 8 bytes. -/
def parseKeyOperand (ts : List Token) : Option KeyOperand :=
  match ts with
  | [.hash, .word cs] => parseKey cs
  | .openBrace :: rest =>
    match parseByteList rest with
    | some bs => if bs.length = 8 then some (keyOfBytes bs) else none
    | none => none
  | _ => none

/-- The command of a mnemonic and the tokens after it, none if the assembler refuses them. -/
def parseOperands (m : Mnemonic) (ts : List Token) : Option Instr :=
  match m, ts with
  | .nop, [] => some .nop
  | .cfg, [.hash, .word n] => (parseByte n).map .cfg
  | .key, .word k :: .comma :: rest =>
    match parseStage k, parseKeyOperand rest with
    | some k, some keyin => some (.key k keyin)
    | _, _ => none
  | .val, [.word k] => (parseStage k).map .val
  | .adv, [.word k] => (parseStage k).map .adv
  | .rdpos, [.word k, .comma, .word w] =>
    match parseStage k, parseWheel w with
    | some k, some w => some (.rdpos k w)
    | _, _ => none
  | .cval, [] => some .cval
  | .cadv, [] => some .cadv
  | .xor, [.hash, .word d] => (parseByte d).map .xor
  | _, _ => none

/-- What the assembler makes of a line. -/
inductive Assembled
  /-- Nothing but white space and a comment. R72 is silent on such a line; that it is accepted is the model's choice
  (DESIGN CHOICE, notes/assumptions/12.md). -/
  | empty
  | command (i : Instr)
  | refused
deriving DecidableEq, Repr

/-- The assembler on one line (R72). A line that is none of R72's forms is refused as a whole (DESIGN CHOICE,
notes/assumptions/12.md). -/
def assembleLine (line : List Char) : Assembled :=
  match lexLine line with
  | [] => .empty
  | .word cs :: rest =>
    match (parseMnemonic cs).bind fun m => parseOperands m rest with
    | some i => .command i
    | none => .refused
  | _ :: _ => .refused

/-! ### Pseudo-instructions (R73) -/

/-- The items of a list between commas, where a comma inside inner braces separates nothing; `acc` is the item read so
far, last token first. -/
def splitItems : Nat → List Token → List Token → List (List Token)
  | _, acc, [] => [acc.reverse]
  | 0, acc, .comma :: rest => acc.reverse :: splitItems 0 [] rest
  | depth, acc, .openBrace :: rest => splitItems (depth + 1) (.openBrace :: acc) rest
  | depth, acc, .closeBrace :: rest => splitItems (depth - 1) (.closeBrace :: acc) rest
  | depth, acc, t :: rest => splitItems depth (t :: acc) rest

/-- The key operands of a list of items, none if one of them is refused. -/
def parseKeyItems : List (List Token) → Option (List KeyOperand)
  | [] => some []
  | item :: rest =>
    match parseKeyOperand item, parseKeyItems rest with
    | some key, some keys => some (key :: keys)
    | _, _ => none

/-- The tokens before the closing brace that ends a line. -/
def beforeClosingBrace (ts : List Token) : Option (List Token) :=
  if ts.getLast? = some .closeBrace then some ts.dropLast else none

/-- The operands of CHAIN after its opening brace: `n` keys, each written as KEY writes its key. -/
def parseChain (n : Byte) (ts : List Token) : Option (List Instr) :=
  match beforeClosingBrace ts with
  | none => none
  | some [] => chainCommands n []
  | some body => (parseKeyItems (splitItems 0 [] body)).bind (chainCommands n)

/-- The operands of PROCESS, ENCRYPT and DECRYPT: a list of bytes in braces, empty for L = 0. -/
def parseMessage (ts : List Token) : Option (List Byte) :=
  match ts with
  | [.openBrace, .closeBrace] => some []
  | .openBrace :: rest => parseByteList rest
  | _ => none

/-- The commands of a pseudo-instruction, none if the tokens spell none. -/
def expandTokens (ts : List Token) : Option (List Instr) :=
  match ts with
  | [] => none
  | .word cs :: rest =>
    let name := cs.map Char.toUpper
    if name = ['P', 'R', 'O', 'C', 'E', 'S', 'S'] then (parseMessage rest).map processCommands
    else if name = ['E', 'N', 'C', 'R', 'Y', 'P', 'T'] then (parseMessage rest).map encryptCommands
    else if name = ['D', 'E', 'C', 'R', 'Y', 'P', 'T'] then (parseMessage rest).map decryptCommands
    else if name = ['C', 'H', 'A', 'I', 'N'] then
      match rest with
      | .word n :: .comma :: .openBrace :: keys => (parseByte n).bind fun n => parseChain n keys
      | _ => none
    else if name = ['S', 'K', 'I', 'P'] then
      match rest with
      | [.word l] => (parseNumber l).map skipCommands
      | _ => none
    else none
  | _ :: _ => none

/-- The commands of a line: one for a command, the expansion for a pseudo-instruction (R72, R73). A blank or comment-only
line, on which R72 is silent, is accepted and has no command (DESIGN CHOICE, notes/assumptions/12.md). -/
def commandsOfLine (line : List Char) : Option (List Instr) :=
  match assembleLine line with
  | .empty => some []
  | .command i => some [i]
  | .refused => expandTokens (lexLine line)

/-- A program: the commands of its lines in order (R72: one command per line). R72 has the assembler refuse an operand
and does not say how far the refusal reaches; here one refused line refuses the whole program (DESIGN CHOICE,
notes/assumptions/12.md). -/
def assemble : List (List Char) → Option (List Instr)
  | [] => some []
  | line :: rest =>
    match commandsOfLine line, assemble rest with
    | some is, some more => some (is ++ more)
    | _, _ => none

/-! ### The disassembler -/

/-- A digit of base 16. -/
def digitChar (d : Nat) : Char := if d < 10 then Char.ofNat (48 + d) else Char.ofNat (55 + d)

/-- The last `width` digits of a number in a base. -/
def digits (base : Nat) : Nat → Nat → List Char
  | 0, _ => []
  | width + 1, v => digits base width (v / base) ++ [digitChar (v % base)]

/-- A hexadecimal number of fixed width with its prefix. -/
def printHex (width v : Nat) : List Char := '0' :: 'x' :: digits 16 width v

/-- A decimal number below 1000 without leading zeros. -/
def printDecimal (v : Nat) : List Char :=
  if v < 10 then digits 10 1 v else if v < 100 then digits 10 2 v else digits 10 3 v

/-- A command in the syntax of R72, with the key as a 64-bit value and the wheel as a number. -/
def printInstr (i : Instr) : List Char :=
  match i with
  | .nop => spelling .nop
  | .cfg n => spelling .cfg ++ [' ', '#'] ++ printDecimal n.toNat
  | .key k keyin =>
    spelling .key ++ [' '] ++ printDecimal k ++ [',', ' ', '#'] ++ printHex 16 keyin.toNat
  | .val k => spelling .val ++ [' '] ++ printDecimal k
  | .adv k => spelling .adv ++ [' '] ++ printDecimal k
  | .rdpos k w => spelling .rdpos ++ [' '] ++ printDecimal k ++ [',', ' '] ++ printDecimal w.index
  | .cval => spelling .cval
  | .cadv => spelling .cadv
  | .xor d => spelling .xor ++ [' ', '#'] ++ printDecimal d.toNat

/-- The disassembler: a command in its syntax, and `.word 0xHHHHHHHH` for a word that matches no row (R72). -/
def disassemble (cw : CommandWord) (keyin : KeyOperand) : List Char :=
  match decode cw keyin with
  | .ok i => printInstr i
  | .error _ => ['.', 'w', 'o', 'r', 'd', ' '] ++ printHex 8 cw.toNat

end Sys2Proof.Machine
end

