-- ==== Sys2Proof/Safety.lean ====
section
/-! DEFINITION. What every state the block can be in satisfies: the position invariant (spec/10_state.md R21,
spec/40_stage.md R83), the legal chain lengths (R23), the bound on NMAX (spec/00_scope.md R7) and the canonical form
of the wheel-table memory inside the table space (spec/20_memory.md R40). In such a state no step faults
(spec/43_control.md R130: the step is total). -/

namespace Sys2Proof.Machine

/-- The number of bytes of the table space: NMAX table sets. -/
def State.tableSpace (s : State) : Nat := s.nmax * tableSetBytes

/-- The invariant of the machine. -/
abbrev State.Inv (s : State) : Prop :=
  (1 ≤ s.nmax ∧ s.nmax ≤ Config.maxStages) ∧
  (1 ≤ s.n.toNat ∧ s.n.toNat ≤ s.nmax) ∧
  (∀ st ∈ s.stages, ∀ p ∈ st, Positions.inRange p = true) ∧
  (s.memory.wf ∧ ∀ c ∈ s.memory, c.1 < s.tableSpace)

end Sys2Proof.Machine
end

