-- ==== Sys2Proof/Certificates/Slice0/Obligations.lean ====
section
/-! DEFINITION. The statements for the provers. Each formalises the rules of spec/ its docstring names; the helpers of
`Sys2Proof.Claims` write the rules' own formulas out, apart from the model's definitions. -/

namespace Sys2Proof.Claims

open Sys2Proof.Machine

/-- `respond(st, data, flag)` and no other change. -/
abbrev answers (s : State) (st : Status) (data : Byte) (flag : Bool) : Result :=
  .next { s with response := some ⟨st, data, flag⟩ }

/-- The encoding clause of a command rule: a word that matches the row is the command with the operands named, and
any other word with that opcode spells no command (R68). -/
def RowDecodes (op : BitVec 4) (mask pattern : CommandWord) (command : CommandWord → KeyOperand → Instr) : Prop :=
  ∀ cw keyin,
    (cw &&& mask = pattern → decode cw keyin = .ok (command cw keyin)) ∧
    (cw.extractLsb' 28 4 = op → cw &&& mask ≠ pattern → ∃ e, decode cw keyin = .error e)

/-- The xor of a stage's eight table bytes, written out (R81). -/
def stageByte (m : Memory) (k : Nat) (p : Positions) : Byte :=
  tableRead m k .a p.a ^^^ tableRead m k .b p.b ^^^ tableRead m k .c p.c ^^^ tableRead m k .d p.d ^^^
  tableRead m k .e p.e ^^^ tableRead m k .f p.f ^^^ tableRead m k .g p.g ^^^ tableRead m k .h p.h

/-- The xor of the bytes of the stages 0, 1, ... at positions `ps` (R100). -/
def chainByte (m : Memory) (ps : List Positions) : Byte :=
  (ps.mapIdx fun k p => stageByte m k p).foldl (· ^^^ ·) 0x00#8

/-- Every wheel one step on, written out with the moduli of R5 (R80, R25). -/
def stepped (p : Positions) : Positions where
  a := BitVec.ofNat 8 ((p.a.toNat + 1) % 256)
  b := BitVec.ofNat 8 ((p.b.toNat + 1) % 253)
  c := BitVec.ofNat 8 ((p.c.toNat + 1) % 251)
  d := BitVec.ofNat 8 ((p.d.toNat + 1) % 249)
  e := BitVec.ofNat 8 ((p.e.toNat + 1) % 247)
  f := BitVec.ofNat 8 ((p.f.toNat + 1) % 245)
  g := BitVec.ofNat 8 ((p.g.toNat + 1) % 241)
  h := BitVec.ofNat 8 ((p.h.toNat + 1) % 239)

/-- The key mapping written out: byte lanes of R66, moduli of R82. -/
def keyed (keyin : KeyOperand) : Positions where
  a := keyin.extractLsb' 0 8
  b := BitVec.ofNat 8 ((keyin.extractLsb' 8 8).toNat % 253)
  c := BitVec.ofNat 8 ((keyin.extractLsb' 16 8).toNat % 251)
  d := BitVec.ofNat 8 ((keyin.extractLsb' 24 8).toNat % 249)
  e := BitVec.ofNat 8 ((keyin.extractLsb' 32 8).toNat % 247)
  f := BitVec.ofNat 8 ((keyin.extractLsb' 40 8).toNat % 245)
  g := BitVec.ofNat 8 ((keyin.extractLsb' 48 8).toNat % 241)
  h := BitVec.ofNat 8 ((keyin.extractLsb' 56 8).toNat % 239)

/-- N >= 1, and the stages 0..N-1 exist, are keyed, and stand at the positions `ps`, each below its modulus (R21, R23,
R24). -/
abbrev ChainAt (s : State) (ps : List Positions) : Prop :=
  1 ≤ s.n.toNat ∧ ps.length = s.n.toNat ∧ s.stages.take s.n.toNat = ps.map some ∧
  ∀ p ∈ ps, Positions.inRange p = true

/-- The stages after one CASCADE_ADVANCE from positions `ps`: stage k moves when wheel a of every stage before it goes
from 255 to 0 (R101). -/
def rippled (ps : List Positions) : List Positions :=
  ps.mapIdx fun k p => if (ps.take k).all (fun q => q.a == 0xFF#8) then stepped p else p

/-- a_k(t) of R103: the number of advances of each stage in t CASCADE_ADVANCEs. -/
def advanceCounts : Nat → List Positions → List Nat
  | _, [] => []
  | t, p :: rest => t :: advanceCounts ((t + p.a.toNat) / 256) rest

/-- The eight moduli of R5. -/
def moduli : List Nat := [256, 253, 251, 249, 247, 245, 241, 239]

/-- P of R9. -/
def period : Nat := 14109497151713483520

/-- The state after the commands `is` were presented from `s` and all answered, apart from the block's own writes: the
host's pc stands `is.length` further, and what else the host holds is still to come. -/
abbrev AfterCommands (s u : State) (is : List Instr) : Prop :=
  u.pc = s.pc + is.length ∧ u.pending = s.pending ∧ u.memory = s.memory

/-- The status of the first check of R145 that fails in `s`, OK when none does. -/
def firstFailure (i : Instr) (s : State) : Status :=
  match i with
  | .nop => .ok
  | .cfg n => if n.toNat = 0 ∨ s.nmax < n.toNat then .invalidConfig else .ok
  | .key k _ => if s.nmax ≤ k then .badStage else .ok
  | .val k => if s.nmax ≤ k then .badStage else if s.keyed k then .ok else .notKeyed
  | .adv k => if s.nmax ≤ k then .badStage else if s.keyed k then .ok else .notKeyed
  | .rdpos k _ => if s.nmax ≤ k then .badStage else if s.keyed k then .ok else .notKeyed
  | .cval => if (List.range s.n.toNat).all s.keyed then .ok else .notKeyed
  | .cadv => if (List.range s.n.toNat).all s.keyed then .ok else .notKeyed
  | .xor _ => if (List.range s.n.toNat).all s.keyed then .ok else .notKeyed

/-- A cascade command that advances the chain. -/
def isCascadeAdvance : Instr → Bool
  | .cadv => true
  | .xor _ => true
  | _ => false

/-- A command that acts on the chain: CFG, CVAL, CADV, or XOR. -/
def isChainCommand : Instr → Bool
  | .cfg _ => true
  | .cval => true
  | .cadv => true
  | .xor _ => true
  | _ => false

/-- A CFG command. -/
def isCfg : Instr → Bool
  | .cfg _ => true
  | _ => false

/-- The number of CASCADE_ADVANCEs in a run: its CADV and XOR commands that respond OK (a refused one does not advance,
R146). -/
def advancesIn (is : List Instr) (rs : List Response) : Nat :=
  (is.zip rs).countP fun q => isCascadeAdvance q.1 && decide (q.2.status = .ok)

/-! The written form of operands (R72): the helpers read a number from its digits apart from the assembler. -/

/-- The digits: decimal ones first, then the hexadecimal ones in lower and in upper case. -/
def digitChars : List Char :=
  ['0', '1', '2', '3', '4', '5', '6', '7', '8', '9', 'a', 'b', 'c', 'd', 'e', 'f', 'A', 'B', 'C', 'D', 'E', 'F']

/-- What a digit stands for. -/
def digitOf (c : Char) : Nat :=
  let place := digitChars.idxOf c
  if place < 16 then place else place - 6

/-- What a list of digits stands for in a base. -/
def numeralValue (base : Nat) (cs : List Char) : Nat := cs.foldl (fun v c => base * v + digitOf c) 0

/-- `cs` writes the number v: in decimal, or in hexadecimal with the prefix `0x` (R72), with any number of digits and
hexadecimal digits in either case (DESIGN CHOICE, notes/assumptions/12.md). -/
def Spells (cs : List Char) (v : Nat) : Prop :=
  (cs ≠ [] ∧ cs.all (digitChars.take 10).contains = true ∧ numeralValue 10 cs = v) ∨
  ∃ ds, cs = '0' :: 'x' :: ds ∧ ds ≠ [] ∧ ds.all digitChars.contains = true ∧ numeralValue 16 ds = v

/-- `name` is a mnemonic in letters of either case (R72: "Mnemonics are case-insensitive"). -/
abbrev Names (name mnemonic : List Char) : Prop := name.map Char.toUpper = mnemonic

/-- A list in braces, its items separated by commas. -/
def braced (items : List (List Char)) : List Char :=
  [Char.ofNat 123] ++ List.intercalate [','] items ++ [Char.ofNat 125]

/-- The letter of a wheel (R6, R72). -/
def wheelLetter (w : Wheel) : Char := ['a', 'b', 'c', 'd', 'e', 'f', 'g', 'h'].getD w.index 'a'

end Sys2Proof.Claims

open Sys2Proof Sys2Proof.Machine Sys2Proof.Claims

/-! ### Encoding -/

/-- Every well-formed command decodes back from its words, every operand at every value; a command other than KEY
does so beside any KEYIN (R60, R61, R66, R67, R130). -/
def Obligations.DecodeOfEncodeIsTheCommand : Prop :=
  ∀ i : Instr, i.wf = true →
    decode (encode i).1 (encode i).2 = .ok i ∧
    ((∀ k key, i ≠ .key k key) → ∀ keyin, decode (encode i).1 keyin = .ok i)

/-- A decoded command is well-formed and encodes to the word it was read from: no word has two readings and no
command two words. -/
def Obligations.EncodeOfDecodeIsTheWord : Prop :=
  ∀ cw keyin i, decode cw keyin = .ok i →
    i.wf = true ∧ (encode i).1 = cw ∧ (i.mnemonic = .key → (encode i).2 = keyin)

/-- R68: a word is the command named in a row exactly when `(CW & mask) == match`, no word matches two rows, and a
word that matches no row spells no command. -/
def Obligations.WordIsACommandExactlyWhenItsRowMatches : Prop :=
  ∀ (cw : CommandWord) (keyin : KeyOperand),
    ((∃ i, decode cw keyin = .ok i ∧ i.mnemonic = .nop) ↔ cw &&& 0xFFFFFFFF#32 = 0x00000000#32) ∧
    ((∃ i, decode cw keyin = .ok i ∧ i.mnemonic = .cfg) ↔ cw &&& 0xFFFFFF00#32 = 0x10000000#32) ∧
    ((∃ i, decode cw keyin = .ok i ∧ i.mnemonic = .key) ↔ cw &&& 0xFFFF00FF#32 = 0x20000000#32) ∧
    ((∃ i, decode cw keyin = .ok i ∧ i.mnemonic = .val) ↔ cw &&& 0xFFFF00FF#32 = 0x30000000#32) ∧
    ((∃ i, decode cw keyin = .ok i ∧ i.mnemonic = .adv) ↔ cw &&& 0xFFFF00FF#32 = 0x40000000#32) ∧
    ((∃ i, decode cw keyin = .ok i ∧ i.mnemonic = .rdpos) ↔ cw &&& 0xFFF800FF#32 = 0x50000000#32) ∧
    ((∃ i, decode cw keyin = .ok i ∧ i.mnemonic = .cval) ↔ cw &&& 0xFFFFFFFF#32 = 0x60000000#32) ∧
    ((∃ i, decode cw keyin = .ok i ∧ i.mnemonic = .cadv) ↔ cw &&& 0xFFFFFFFF#32 = 0x70000000#32) ∧
    ((∃ i, decode cw keyin = .ok i ∧ i.mnemonic = .xor) ↔ cw &&& 0xFFFFFF00#32 = 0x80000000#32)

/-- R69, R70: a presented word with OP in 0x9..0xF or with a nonzero RSV answers ILLEGAL in every state, and writes
nothing. -/
def Obligations.ReservedWordsAnswerIllegal : Prop :=
  ∀ (s : State) cw keyin rest, s.pending = .command cw keyin :: rest →
    (0x9#4 ≤ cw.extractLsb' 28 4 ∨ cw.extractLsb' 19 9 ≠ 0#9) →
    step s = answers { s with pending := rest, pc := s.pc + 1 } .illegal 0x00#8 false

/-- R141: a presented word that matches no row of R68 answers ILLEGAL in every state, before any other check; a word
that matches a row does not. -/
def Obligations.WordMatchingNoRowAnswersIllegal : Prop :=
  ∀ (s : State) cw keyin rest, s.pending = .command cw keyin :: rest →
    ((∀ mp ∈ [(0xFFFFFFFF#32, 0x00000000#32), (0xFFFFFF00#32, 0x10000000#32), (0xFFFF00FF#32, 0x20000000#32),
        (0xFFFF00FF#32, 0x30000000#32), (0xFFFF00FF#32, 0x40000000#32), (0xFFF800FF#32, 0x50000000#32),
        (0xFFFFFFFF#32, 0x60000000#32), (0xFFFFFFFF#32, 0x70000000#32), (0xFFFFFF00#32, 0x80000000#32)],
        cw &&& mp.1 ≠ mp.2) →
      step s = answers { s with pending := rest, pc := s.pc + 1 } .illegal 0x00#8 false) ∧
    (∀ t r, step s = .next t → t.response = some r → r.status = .illegal → ∃ e, decode cw keyin = .error e)

/-- Words written out from R61 and the examples of the spec decode to the commands they stand for. -/
def Obligations.SpecWordsDecodeToTheirCommands : Prop :=
  decode 0x00000000#32 0#64 = .ok .nop ∧
  decode 0x10000002#32 0#64 = .ok (.cfg 0x02#8) ∧
  decode 0x20000100#32 0x0706050403020100#64 = .ok (.key 1 0x0706050403020100#64) ∧
  decode 0x30000900#32 0#64 = .ok (.val 9) ∧
  decode 0x40000000#32 0#64 = .ok (.adv 0) ∧
  decode 0x50070300#32 0#64 = .ok (.rdpos 3 .h) ∧
  decode 0x60000000#32 0#64 = .ok .cval ∧
  decode 0x70000000#32 0#64 = .ok .cadv ∧
  decode 0x800000FF#32 0#64 = .ok (.xor 0xFF#8) ∧
  decode 0x20010000#32 0#64 = .error .nonzeroUnusedField ∧
  decode 0x08000000#32 0#64 = .error .nonzeroRsv ∧
  decode 0x90000100#32 0#64 = .error .reservedOpcode

/-! ### The step -/

/-- When the presented word decodes to a command, the step is that command's meaning, run after the host's sequence
and its pc have moved on by one (R130, R29). -/
def Obligations.StepRunsThePresentedCommand : Prop :=
  ∀ (s : State) cw keyin rest i, s.pending = .command cw keyin :: rest → decode cw keyin = .ok i →
    step s = exec i { s with pending := rest, pc := s.pc + 1 }

/-- With nothing presented the block waits and nothing changes. The model's choice (notes/assumptions/6.md): R172
says only that the block waits. -/
def Obligations.StepWaitsWhenNothingIsPresented : Prop :=
  ∀ s : State, s.pending = [] → step s = .next s

/-- R170, R171: the reset input makes every POS hold no value, every KEYED 0 and N = 1, gives no response, and leaves
the tables alone; the first command after it is accepted normally. -/
def Obligations.ResetInputPutsTheBlockAtItsResetValues : Prop :=
  ∀ (s : State) rest, s.pending = .reset :: rest →
    ∃ t, step s = .next t ∧ t.nmax = s.nmax ∧ (∀ k, t.pos k = none) ∧ (∀ k, t.keyed k = false) ∧
      t.n = 0x01#8 ∧ t.response = none ∧ t.pending = rest ∧
      (∀ addr, t.memory.read addr = s.memory.read addr) ∧
      ∀ cw keyin rest' i, rest = .command cw keyin :: rest' → decode cw keyin = .ok i →
        step t = exec i { t with pending := rest', pc := t.pc + 1 }

/-- The invariant holds in the reset state. -/
def Obligations.InvariantHoldsAtReset : Prop := State.reset.Inv

/-- Every step keeps the invariant: positions stay below their moduli (R21), N stays in 1..NMAX (R23), the number of
stages stays legal (R7), and memory keeps its canonical form inside the table space. -/
def Obligations.EveryStepKeepsTheInvariant : Prop :=
  ∀ s t : State, s.Inv → step s = .next t → t.Inv

/-- The first sentence of R83: the position invariant of R21 holds after every KEYSCHED write and every ADVANCE_STAGE,
whatever the key bytes and whatever the positions before. (The values written are in the statements of KEY and ADV.) -/
def Obligations.WrittenPositionsAreBelowTheirModuli : Prop :=
  ∀ (keyin : KeyOperand) (p : Positions) (w : Wheel),
    ((keySchedule keyin).get w).toNat < Claims.moduli.getD w.index 0 ∧
    (p.advanced.get w).toNat < Claims.moduli.getD w.index 0

/-- The step is total (R130): in a state that meets the invariant every step answers a next state, and a presented
command is consumed, moves the host's pc by one, and gets a response. -/
def Obligations.EveryStepAnswersInInvariantStates : Prop :=
  ∀ s : State, s.Inv →
    ∃ t, step s = .next t ∧
      ∀ cw keyin rest, s.pending = .command cw keyin :: rest →
        t.pending = rest ∧ t.pc = s.pc + 1 ∧ ∃ r, t.response = some r

/-- R146: a command that reports an error has written no state, its response is (code, 0x00, 0), and the next input
runs as if the refused command had been a NOP. -/
def Obligations.ErrorsArePreciseAndNotSticky : Prop :=
  ∀ (s t u : State) cw keyin rest r,
    s.pending = .command cw keyin :: rest → step s = .next t → t.response = some r → r.status ≠ .ok →
    exec .nop { s with pending := rest, pc := s.pc + 1 } = .next u →
      t.stages = s.stages ∧ t.n = s.n ∧ (∀ addr, t.memory.read addr = s.memory.read addr) ∧
      r.data = 0x00#8 ∧ r.flag = false ∧ (rest ≠ [] → step t = step u)

/-- R28: no command reads an earlier response. -/
def Obligations.NoCommandReadsAnEarlierResponse : Prop :=
  ∀ (i : Instr) (s : State) (r : Option Response), exec i { s with response := r } = exec i s

/-- R130: KEYIN is read only by KEY; for every word that is not a KEY command, decoded or illegal (one with the opcode
of KEY among them), any value gives the same step. -/
def Obligations.KeyinIsReadOnlyByKey : Prop :=
  ∀ (s : State) cw keyin keyin' rest, cw &&& 0xFFFF00FF#32 ≠ 0x20000000#32 →
    step { s with pending := .command cw keyin :: rest } = step { s with pending := .command cw keyin' :: rest }

/-! ### Errors -/

/-- R142: INVALID_CONFIG is raised exactly by CFG with n = 0 or n > NMAX. -/
def Obligations.InvalidConfigIsExactlyCfgOutsideOneToNmax : Prop :=
  (∀ (s : State) (n : Byte), (n = 0#8 ∨ s.nmax < n.toNat) →
    exec (.cfg n) s = answers s .invalidConfig 0x00#8 false) ∧
  (∀ (i : Instr) (s t : State) r, exec i s = .next t → t.response = some r → r.status = .invalidConfig →
    ∃ n, i = .cfg n ∧ (n = 0#8 ∨ s.nmax < n.toNat))

/-- R143: KEY, VAL, ADV and RDPOS answer BAD_STAGE when k >= NMAX, keyed or not; no other command does. -/
def Obligations.BadStageIsExactlyAStageIndexFromNmaxOn : Prop :=
  (∀ (s : State) (k : Nat), s.nmax ≤ k →
    (∀ keyin, exec (.key k keyin) s = answers s .badStage 0x00#8 false) ∧
    exec (.val k) s = answers s .badStage 0x00#8 false ∧
    exec (.adv k) s = answers s .badStage 0x00#8 false ∧
    (∀ w, exec (.rdpos k w) s = answers s .badStage 0x00#8 false)) ∧
  (∀ (i : Instr) (s t : State) r, exec i s = .next t → t.response = some r → r.status = .badStage →
    ∃ k, s.nmax ≤ k ∧ ((∃ keyin, i = .key k keyin) ∨ i = .val k ∨ i = .adv k ∨ ∃ w, i = .rdpos k w))

/-- R144: VAL, ADV and RDPOS answer NOT_KEYED on an unkeyed stage, CVAL, CADV and XOR when some stage below N is
unkeyed; KEY, CFG and NOP never do. -/
def Obligations.NotKeyedIsAnsweredOnUnkeyedStages : Prop :=
  (∀ (s : State) (k : Nat), k < s.nmax → s.keyed k = false →
    exec (.val k) s = answers s .notKeyed 0x00#8 false ∧
    exec (.adv k) s = answers s .notKeyed 0x00#8 false ∧
    (∀ w, exec (.rdpos k w) s = answers s .notKeyed 0x00#8 false)) ∧
  (∀ (s : State) (k : Nat), 1 ≤ s.n.toNat → s.n.toNat ≤ s.nmax → k < s.n.toNat → s.keyed k = false →
    exec .cval s = answers s .notKeyed 0x00#8 false ∧
    exec .cadv s = answers s .notKeyed 0x00#8 false ∧
    (∀ d, exec (.xor d) s = answers s .notKeyed 0x00#8 false)) ∧
  (∀ (i : Instr) (s t : State) r, exec i s = .next t → t.response = some r → r.status = .notKeyed →
    (∀ k keyin, i ≠ .key k keyin) ∧ (∀ n, i ≠ .cfg n) ∧ i ≠ .nop)

/-- R145: a presented command reports the first check that fails, in the order ILLEGAL, then INVALID_CONFIG or
BAD_STAGE, then NOT_KEYED, and OK when none does. -/
def Obligations.CommandsReportTheFirstFailingCheck : Prop :=
  ∀ (s : State) cw keyin rest, s.Inv → s.pending = .command cw keyin :: rest →
    ∃ t r, step s = .next t ∧ t.response = some r ∧
      (∀ e, decode cw keyin = .error e → r.status = .illegal) ∧
      (∀ i, decode cw keyin = .ok i → r.status = Claims.firstFailure i s)

/-- Where the spec's own invariant fails (positions outside their tables, N outside 1..NMAX), the commands that would
need the missing value stop by name. That the case never arises is the spec's (R43, R25, R23), and so is the fault of a
table read (treatment U7); the names, the faults of ADV, CADV and an illegal N, the order of the checks, and the check
of every active stage at once are the model's choice (DESIGN CHOICE, notes/assumptions/10.md). -/
def Obligations.StatesOutsideTheInvariantStopByName : Prop :=
  (∀ (s : State) (k : Nat) (p : Positions), s.stages[k]? = some (some p) → p.inRange = false →
    exec (.val k) s = .fault .tableIndexOutOfRange ∧ exec (.adv k) s = .fault .successorIndexOutOfRange) ∧
  (∀ (s : State), (s.n.toNat = 0 ∨ s.nmax < s.n.toNat) →
    exec .cval s = .fault .chainLengthOutOfRange ∧ exec .cadv s = .fault .chainLengthOutOfRange ∧
    ∀ d, exec (.xor d) s = .fault .chainLengthOutOfRange) ∧
  (∀ (s : State) (ps : List Positions), 1 ≤ s.n.toNat → ps.length = s.n.toNat →
    s.stages.take s.n.toNat = ps.map some → (∃ p ∈ ps, p.inRange = false) →
    exec .cval s = .fault .tableIndexOutOfRange ∧ exec .cadv s = .fault .successorIndexOutOfRange ∧
    ∀ d, exec (.xor d) s = .fault .tableIndexOutOfRange)

/-! ### The commands -/

/-- R131: NOP responds (OK, 0x00, 0) in every state; its word is 0x00000000 and any other word with OP = 0x0 is
illegal. -/
def Obligations.NopAnswersOk : Prop :=
  RowDecodes 0x0#4 0xFFFFFFFF#32 0x00000000#32 (fun _ _ => .nop) ∧
  ∀ s : State, exec .nop s = answers s .ok 0x00#8 false

/-- R110: CFG #n with 1 <= n <= NMAX sets N to n and changes nothing else; any other n is refused and N is
unchanged. -/
def Obligations.CfgSetsTheChainLength : Prop :=
  RowDecodes 0x1#4 0xFFFFFF00#32 0x10000000#32 (fun cw _ => .cfg (cw.extractLsb' 0 8)) ∧
  ∀ (s : State) (n : Byte),
    (1 ≤ n.toNat → n.toNat ≤ s.nmax → exec (.cfg n) s = answers { s with n := n } .ok 0x00#8 false) ∧
    (n.toNat = 0 ∨ s.nmax < n.toNat → exec (.cfg n) s = answers s .invalidConfig 0x00#8 false)

/-- R91, R82, R66: KEY k writes the eight positions from the key bytes and sets KEYED[k], whatever the stage held
before; k >= NMAX is refused. -/
def Obligations.KeyWritesThePositionsOfItsStage : Prop :=
  RowDecodes 0x2#4 0xFFFF00FF#32 0x20000000#32 (fun cw keyin => .key (cw.extractLsb' 8 8).toNat keyin) ∧
  ∀ (s : State) (k : Nat) (keyin : KeyOperand),
    (k < s.nmax → exec (.key k keyin) s =
      answers { s with stages := s.stages.set k (some (Claims.keyed keyin)) } .ok 0x00#8 false) ∧
    (s.nmax ≤ k → exec (.key k keyin) s = answers s .badStage 0x00#8 false)

/-- R92, R81: VAL k answers the xor of stage k's eight table bytes and writes nothing. -/
def Obligations.ValAnswersTheStageByte : Prop :=
  RowDecodes 0x3#4 0xFFFF00FF#32 0x30000000#32 (fun cw _ => .val (cw.extractLsb' 8 8).toNat) ∧
  ∀ (s : State) (k : Nat),
    (∀ p, s.stages[k]? = some (some p) → p.inRange = true →
      exec (.val k) s = answers s .ok (Claims.stageByte s.memory k p) false) ∧
    (s.nmax ≤ k → exec (.val k) s = answers s .badStage 0x00#8 false) ∧
    (s.stages[k]? = some none → exec (.val k) s = answers s .notKeyed 0x00#8 false)

/-- R93, R80, R25: ADV k moves every wheel of stage k one step, its flag is 1 exactly when wheel a went from 255 to 0,
and no other stage moves. -/
def Obligations.AdvStepsEveryWheelOfItsStage : Prop :=
  RowDecodes 0x4#4 0xFFFF00FF#32 0x40000000#32 (fun cw _ => .adv (cw.extractLsb' 8 8).toNat) ∧
  ∀ (s : State) (k : Nat),
    (∀ p, s.stages[k]? = some (some p) → p.inRange = true →
      exec (.adv k) s =
        answers { s with stages := s.stages.set k (some (Claims.stepped p)) } .ok 0x00#8 (p.a == 0xFF#8)) ∧
    (s.nmax ≤ k → exec (.adv k) s = answers s .badStage 0x00#8 false) ∧
    (s.stages[k]? = some none → exec (.adv k) s = answers s .notKeyed 0x00#8 false)

/-- R94: RDPOS k, w answers POS[k][w] for every w and writes nothing. -/
def Obligations.RdposAnswersThePosition : Prop :=
  RowDecodes 0x5#4 0xFFF800FF#32 0x50000000#32
    (fun cw _ => .rdpos (cw.extractLsb' 8 8).toNat
      ([Wheel.a, .b, .c, .d, .e, .f, .g, .h].getD (cw.extractLsb' 16 3).toNat .a)) ∧
  ∀ (s : State) (k : Nat),
    (∀ p, s.stages[k]? = some (some p) →
      exec (.rdpos k .a) s = answers s .ok p.a false ∧ exec (.rdpos k .b) s = answers s .ok p.b false ∧
      exec (.rdpos k .c) s = answers s .ok p.c false ∧ exec (.rdpos k .d) s = answers s .ok p.d false ∧
      exec (.rdpos k .e) s = answers s .ok p.e false ∧ exec (.rdpos k .f) s = answers s .ok p.f false ∧
      exec (.rdpos k .g) s = answers s .ok p.g false ∧ exec (.rdpos k .h) s = answers s .ok p.h false) ∧
    (∀ w, s.nmax ≤ k → exec (.rdpos k w) s = answers s .badStage 0x00#8 false) ∧
    (∀ w, s.stages[k]? = some none → exec (.rdpos k w) s = answers s .notKeyed 0x00#8 false)

/-- R111, R100: CVAL answers the xor of the values of the stages 0..N-1 and writes nothing. -/
def Obligations.CvalAnswersTheChainByte : Prop :=
  RowDecodes 0x6#4 0xFFFFFFFF#32 0x60000000#32 (fun _ _ => .cval) ∧
  (∀ (s : State) (ps : List Positions), ChainAt s ps →
    exec .cval s = answers s .ok (Claims.chainByte s.memory ps) false) ∧
  (∀ (s : State) (k : Nat), 1 ≤ s.n.toNat → s.n.toNat ≤ s.nmax → k < s.n.toNat → s.stages[k]? = some none →
    exec .cval s = answers s .notKeyed 0x00#8 false)

/-- R112, R101: CADV moves stage k exactly when wheel a of every stage before it goes from 255 to 0 in this command;
its flag is 1 exactly when that happens in every stage 0..N-1; the stages from N on are untouched. -/
def Obligations.CadvRipplesTheCarry : Prop :=
  RowDecodes 0x7#4 0xFFFFFFFF#32 0x70000000#32 (fun _ _ => .cadv) ∧
  (∀ (s : State) (ps : List Positions), ChainAt s ps →
    exec .cadv s =
      answers { s with stages := (Claims.rippled ps).map some ++ s.stages.drop s.n.toNat } .ok 0x00#8
        (ps.all fun q => q.a == 0xFF#8)) ∧
  (∀ (s : State) (k : Nat), 1 ≤ s.n.toNat → s.n.toNat ≤ s.nmax → k < s.n.toNat → s.stages[k]? = some none →
    exec .cadv s = answers s .notKeyed 0x00#8 false)

/-- R120: XOR #d answers d xor the chain's value before the advance, then advances the chain as CADV does; a refused
XOR gives no output byte and does not advance. -/
def Obligations.XorCombinesThenAdvances : Prop :=
  RowDecodes 0x8#4 0xFFFFFF00#32 0x80000000#32 (fun cw _ => .xor (cw.extractLsb' 0 8)) ∧
  (∀ (s : State) (ps : List Positions) (d : Byte), ChainAt s ps →
    exec (.xor d) s =
      answers { s with stages := (Claims.rippled ps).map some ++ s.stages.drop s.n.toNat } .ok
        (d ^^^ Claims.chainByte s.memory ps) (ps.all fun q => q.a == 0xFF#8)) ∧
  (∀ (s : State) (k : Nat) (d : Byte), 1 ≤ s.n.toNat → s.n.toNat ≤ s.nmax → k < s.n.toNat →
    s.stages[k]? = some none → exec (.xor d) s = answers s .notKeyed 0x00#8 false)

/-- With N = 1 the chain is stage 0: CVAL acts as VAL 0 and CADV as ADV 0, flag and refusals included (the corner
cases of R111 and R112). -/
def Obligations.OneStageChainActsAsStageZero : Prop :=
  ∀ s : State, s.n = 0x01#8 → 1 ≤ s.nmax →
    exec .cval s = exec (.val 0) s ∧ exec .cadv s = exec (.adv 0) s

/-! ### Frames -/

/-- NOP, VAL, RDPOS and CVAL change nothing but the response: no position, no KEYED bit, not N, no table byte, not the
host's side (R178: "VAL, CVAL, RDPOS and NOP change nothing"). -/
def Obligations.ReadingCommandsChangeOnlyTheResponse : Prop :=
  ∀ (i : Instr) (s t : State),
    (i = .nop ∨ i = .cval ∨ (∃ k, i = .val k) ∨ ∃ k w, i = .rdpos k w) → exec i s = .next t →
    t.stages = s.stages ∧ t.n = s.n ∧ t.pending = s.pending ∧ t.pc = s.pc ∧
    ∀ addr, t.memory.read addr = s.memory.read addr

/-- KEY k and ADV k change no stage but k, not the number of stages, not N, no table byte, not the host's side; CFG
changes no stage (R91, R93, R110, R24). -/
def Obligations.StageAndConfigCommandsLeaveTheRestAlone : Prop :=
  ∀ (i : Instr) (s t : State) (k : Nat), exec i s = .next t →
    (((∃ keyin, i = .key k keyin) ∨ i = .adv k) →
      (∀ j, j ≠ k → t.stages[j]? = s.stages[j]?) ∧ t.nmax = s.nmax ∧ t.n = s.n ∧ t.pending = s.pending ∧
      t.pc = s.pc ∧ ∀ addr, t.memory.read addr = s.memory.read addr) ∧
    ((∃ n, i = .cfg n) →
      t.stages = s.stages ∧ t.pending = s.pending ∧ t.pc = s.pc ∧
      ∀ addr, t.memory.read addr = s.memory.read addr)

/-- CADV and XOR change no stage from N on, no KEYED bit, not the number of stages, not N, no table byte, not the
host's side (R101, R24). -/
def Obligations.ChainCommandsLeaveInactiveStagesAlone : Prop :=
  ∀ (i : Instr) (s t : State), (i = .cadv ∨ ∃ d, i = .xor d) → exec i s = .next t →
    (∀ k, s.n.toNat ≤ k → t.stages[k]? = s.stages[k]?) ∧ (∀ k, t.keyed k = s.keyed k) ∧ t.nmax = s.nmax ∧
    t.n = s.n ∧ t.pending = s.pending ∧ t.pc = s.pc ∧ ∀ addr, t.memory.read addr = s.memory.read addr

/-! ### Rules about the whole machine -/

/-- R44: no step, whatever is presented, writes the wheel table space. -/
def Obligations.NoStepWritesTheWheelTables : Prop :=
  ∀ s t : State, step s = .next t → ∀ k w i, tableRead t.memory k w i = tableRead s.memory k w i

/-- R22: KEYED[k] is set by KEY on stage k and by nothing else; no command clears it; the reset input clears every
one; after reset every one is 0. -/
def Obligations.KeyedIsSetByKeyAndClearedOnlyByReset : Prop :=
  (∀ (i : Instr) (s t : State) (k : Nat), exec i s = .next t →
    (t.keyed k = true ↔ s.keyed k = true ∨ k < s.nmax ∧ ∃ keyin, i = .key k keyin)) ∧
  (∀ (s t : State) rest k, s.pending = .reset :: rest → step s = .next t → t.keyed k = false) ∧
  (∀ k, State.reset.keyed k = false)

/-- N is written only by CFG, with its operand, in 1..NMAX; the reset input sets it to 1, its reset value (R23). -/
def Obligations.ChainLengthIsWrittenOnlyByCfg : Prop :=
  (∀ (i : Instr) (s t : State), exec i s = .next t → t.n ≠ s.n →
    i = .cfg t.n ∧ 1 ≤ t.n.toNat ∧ t.n.toNat ≤ s.nmax) ∧
  (∀ (s t : State) rest, s.pending = .reset :: rest → step s = .next t → t.n = 0x01#8) ∧
  State.reset.n = 0x01#8

/-- CVAL, CADV and XOR do not read the stages from N on, nor their KEYED bits: two states that agree on N, the number
of stages, the tables and the active stages give the same response and the same active stages (R24). -/
def Obligations.InactiveStagesDoNotAffectTheChain : Prop :=
  ∀ (i : Instr) (s s' t : State), (i = .cval ∨ i = .cadv ∨ ∃ d, i = .xor d) →
    s'.n = s.n → s'.nmax = s.nmax → s'.memory = s.memory →
    s'.stages.take s.n.toNat = s.stages.take s.n.toNat → exec i s = .next t →
    ∃ t', exec i s' = .next t' ∧ t'.response = t.response ∧
      t'.stages.take s.n.toNat = t.stages.take s.n.toNat ∧
      t'.stages.drop s.n.toNat = s'.stages.drop s.n.toNat

/-- Entries of the wheel tables are separate bytes: an entry the host connects reads back, and every other entry of
every table of every stage reads as before; nothing else changes and the invariant is kept (R8, R40, R41, R42; the
layout is the model's, notes/assumptions/3.md). -/
def Obligations.TableEntriesAreSeparateBytes : Prop :=
  ∀ (s : State) (k : Fin s.nmax) (w : Wheel) (i : Fin w.modulus) (v : Byte),
    s.memory.wf →
    (∀ (k' : Nat) (w' : Wheel) (i' : Byte), i'.toNat < w'.modulus →
      tableRead (s.connectByte k w i v).memory k' w' i' =
        if k' = k.val ∧ w' = w ∧ i'.toNat = i.val then v else tableRead s.memory k' w' i') ∧
    (s.connectByte k w i v).memory.wf ∧
    s.connectByte k w i v = { s with memory := (s.connectByte k w i v).memory } ∧
    (s.Inv → (s.connectByte k w i v).Inv)

/-- A table the host connects has exactly M[w] entries, by its type: each of them is what TableRead answers at its
index, and no entry of any other table changes. After the host has connected the whole binding TS, TableRead answers
TS[k][w][i] for every stage, wheel and index. Nothing else changes and the invariant is kept (R8, R42, R147). -/
def Obligations.ConnectedTablesReadBack : Prop :=
  (∀ (s : State) (k : Fin s.nmax) (w : Wheel) (table : WheelTable w), s.memory.wf →
    (∀ i : Fin w.modulus, tableRead (s.connectTable k w table).memory k w (BitVec.ofNat 8 i) = table[i]) ∧
    (∀ (k' : Nat) (w' : Wheel) (i' : Byte), i'.toNat < w'.modulus → ¬ (k' = k.val ∧ w' = w) →
      tableRead (s.connectTable k w table).memory k' w' i' = tableRead s.memory k' w' i') ∧
    s.connectTable k w table = { s with memory := (s.connectTable k w table).memory } ∧
    (s.Inv → (s.connectTable k w table).Inv)) ∧
  ∀ (s : State) (ts : Fin s.nmax → TableSet), s.memory.wf →
    (∀ (k : Fin s.nmax) (w : Wheel) (i : Fin w.modulus),
      tableRead (s.connectTables ts).memory k w (BitVec.ofNat 8 i) = (ts k w)[i]) ∧
    s.connectTables ts = { s with memory := (s.connectTables ts).memory } ∧
    (s.Inv → (s.connectTables ts).Inv)

/-- R9: the moduli sum to 1981, their product is P, which fits in 64 bits, they are pairwise coprime, and their least
common multiple is P. -/
def Obligations.WheelConstantsAreThoseOfTheSpec : Prop :=
  Wheel.all.map Wheel.modulus = Claims.moduli ∧ Claims.moduli.sum = 1981 ∧ tableSetBytes = 1981 ∧
  Claims.moduli.prod = Claims.period ∧ Claims.period = 0xC3CF00E777449B00 ∧ Claims.period < 2 ^ 64 ∧
  stagePeriod = Claims.period ∧ Claims.moduli.Pairwise Nat.Coprime ∧
  Claims.moduli.foldl Nat.lcm 1 = Claims.period

/-! ### Runs -/

/-- R84: after t ADVs of stage k wheel w holds (p[w] + t) mod M[w]; the stage is back at its positions exactly when P
divides t; and advance number j + 1 wraps exactly when p[0] + j + 1 is a multiple of 256. -/
def Obligations.RepeatedAdvanceHasPeriodP : Prop :=
  ∀ (s : State) (k t : Nat) (p : Positions), k ≤ 255 → s.stages[k]? = some (some p) → p.inRange = true →
    ∃ rs u q, transcript t (s.queue (List.replicate t (.adv k))) = some (rs, u) ∧
      u.stages = s.stages.set k (some q) ∧
      (∀ w, (q.get w).toNat = ((p.get w).toNat + t) % Claims.moduli.getD w.index 1) ∧
      (q = p ↔ Claims.period ∣ t) ∧
      rs = (List.range t).map fun j => ⟨.ok, 0x00#8, decide (256 ∣ p.a.toNat + (j + 1))⟩

/-- R102: over any sequence of chain commands (CFG, CVAL, CADV, XOR), stage 0 ends at the positions it would have alone
after as many ADVs as the sequence has CASCADE_ADVANCEs. Those are its CADV and XOR commands: all of them when no CFG
stands among the commands and the chain is keyed, or when every stage of the block is keyed; otherwise those that are
not refused. -/
def Obligations.FirstStageMovesAsIfAlone : Prop :=
  (∀ (s : State) (ps : List Positions) (is : List Instr), ChainAt s ps →
    is.all (fun i => isChainCommand i && !isCfg i) = true →
    ∃ rs u rs' u', transcript is.length (s.queue is) = some (rs, u) ∧
      transcript (is.countP isCascadeAdvance) (s.queue (List.replicate (is.countP isCascadeAdvance) (.adv 0))) =
        some (rs', u') ∧
      u.stages[0]? = u'.stages[0]? ∧ u'.keyed 0 = true) ∧
  ∀ (s : State) (is : List Instr), s.Inv → s.keyed 0 = true → is.all isChainCommand = true →
    ∃ rs u rs' u', transcript is.length (s.queue is) = some (rs, u) ∧ rs.length = is.length ∧
      transcript (advancesIn is rs) (s.queue (List.replicate (advancesIn is rs) (.adv 0))) = some (rs', u') ∧
      u.stages[0]? = u'.stages[0]? ∧ u'.keyed 0 = true ∧
      ((∀ k, k < s.nmax → s.keyed k = true) → advancesIn is rs = is.countP isCascadeAdvance)

/-- R103: after t CADVs stage k has advanced a_k(t) times, with a_0(t) = t and a_k(t) = floor((a_(k-1)(t) + q[k-1]) /
256). -/
def Obligations.ChainAdvanceCountsAreTheCarryFormula : Prop :=
  ∀ (s : State) (ps : List Positions) (t : Nat), ChainAt s ps →
    ∃ rs u, transcript t (s.queue (skipCommands t)) = some (rs, u) ∧
      AfterCommands s u (skipCommands t) ∧ u.n = s.n ∧
      u.stages =
        (List.zipWith advancedStage (Claims.advanceCounts t ps) ps).map some ++ s.stages.drop s.n.toNat

/-- R104: t CADVs return the chain to its positions exactly when 256^(N-1) P divides t, whatever the positions; the
keystream repeats with that many bytes. -/
def Obligations.ChainPeriodIsExact : Prop :=
  ∀ (s : State) (ps : List Positions) (t : Nat), ChainAt s ps →
    ∃ rs u, transcript t (s.queue (skipCommands t)) = some (rs, u) ∧
      (u.stages = s.stages ↔ 256 ^ (s.n.toNat - 1) * Claims.period ∣ t) ∧
      ∀ j, Claims.chainByte s.memory (Claims.rippled^[j + 256 ^ (s.n.toNat - 1) * Claims.period] ps) =
        Claims.chainByte s.memory (Claims.rippled^[j] ps)

/-- R121: PROCESS of L bytes answers L responses, all OK, whose data bytes are d_i xor ks[i], where ks[i] is the value of
the chain advanced i times, and leaves the chain advanced L times. -/
def Obligations.ProcessXorsTheKeystream : Prop :=
  ∀ (s : State) (ps : List Positions) (ds : List Byte), ChainAt s ps →
    ∃ rs u, transcript ds.length (s.queue (processCommands ds)) = some (rs, u) ∧
      rs.length = ds.length ∧ (∀ r ∈ rs, r.status = .ok) ∧
      rs.map Response.data = ds.mapIdx (fun i d => d ^^^ Claims.chainByte s.memory (Claims.rippled^[i] ps)) ∧
      AfterCommands s u (processCommands ds) ∧ u.n = s.n ∧
      u.stages = (Claims.rippled^[ds.length] ps).map some ++ s.stages.drop s.n.toNat

/-- R122: from the same tables, the same N and the same positions of the active stages, processing the output of a
run of PROCESS gives its input back. -/
def Obligations.StreamIsAnInvolution : Prop :=
  ∀ (s s' : State) (ps : List Positions) (ds : List Byte), ChainAt s ps → ChainAt s' ps →
    s'.n = s.n → s'.memory = s.memory →
    ∃ rs u rs' u', transcript ds.length (s.queue (encryptCommands ds)) = some (rs, u) ∧
      transcript ds.length (s'.queue (decryptCommands (rs.map Response.data))) = some (rs', u') ∧
      rs'.map Response.data = ds ∧ u'.stages.take s.n.toNat = u.stages.take s.n.toNat

/-- R123: if every table entry of every active stage is 0x00, every value is 0x00 and PROCESS returns its input
unchanged, for every key and every message. -/
def Obligations.ZeroTablesGiveTheIdentity : Prop :=
  ∀ (s : State) (ps : List Positions) (ds : List Byte), ChainAt s ps →
    (∀ k w (i : Byte), k < s.n.toNat → i.toNat < w.modulus → tableRead s.memory k w i = 0x00#8) →
    (∀ k, k < s.n.toNat → exec (.val k) s = answers s .ok 0x00#8 false) ∧
    (∀ i, Claims.chainByte s.memory (Claims.rippled^[i] ps) = 0x00#8) ∧
    exec .cval s = answers s .ok 0x00#8 false ∧
    ∃ rs u, transcript ds.length (s.queue (processCommands ds)) = some (rs, u) ∧ rs.map Response.data = ds

/-- CHAIN n with n keys, 1 <= n <= NMAX, runs with every response OK and leaves N = n, stage k at the positions of key
k for every k < n, and every other stage as it was; the chain's commands are then not refused (R73, R173). -/
def Obligations.ChainSetupKeysTheWholeChain : Prop :=
  ∀ (s : State) (n : Byte) (keys : List KeyOperand) (is : List Instr),
    1 ≤ n.toNat → n.toNat ≤ s.nmax → chainCommands n keys = some is →
    ∃ rs u, transcript is.length (s.queue is) = some (rs, u) ∧
      rs = List.replicate (n.toNat + 1) ⟨.ok, 0x00#8, false⟩ ∧ u.n = n ∧
      u.stages = (keys.map fun key => some (Claims.keyed key)) ++ s.stages.drop n.toNat ∧
      ChainAt u (keys.map Claims.keyed)

/-! ### The assembler -/

/-- Every well-formed command, written as the disassembler writes it, assembles to itself; the disassembler writes the
command of a word that has one, and `.word 0x` with eight digits otherwise (R72). R72 gives the disassembler the `.word`
form only: how it writes a command (decimal operands, a key of 16 upper-case digits, a wheel as a number) is the
model's choice (DESIGN CHOICE, notes/assumptions/12.md). -/
def Obligations.AssemblerReadsTheDisassembly : Prop :=
  (∀ i : Instr, i.wf = true → assembleLine (printInstr i) = .command i) ∧
  (∀ cw keyin i, decode cw keyin = .ok i → assembleLine (disassemble cw keyin) = .command i) ∧
  (∀ cw keyin e, decode cw keyin = .error e →
    disassemble cw keyin = ['.', 'w', 'o', 'r', 'd', ' ', '0', 'x'] ++ digits 16 8 cw.toNat)

/-- Whatever the assembler accepts is well-formed, and so are the commands a line of a program expands to. Each operand
is read as the number it writes, and refused when that does not fit its field (R72): a stage index, a chain length or a
data byte above 255, a wheel above 7, a key of 2^64 or more, a list of key bytes whose length is not 8 or that holds a
byte above 255. R72 writes a key value as `#0x` with 16 digits: that it may also be decimal or have any number of
digits, that hexadecimal digits are read in either case, and that spaces stand where these lines have them, are the
model's choice (DESIGN CHOICE, notes/assumptions/12.md). -/
def Obligations.AssemblerAcceptsOnlyWellFormedCommands : Prop :=
  (∀ (line : List Char) (i : Instr), assembleLine line = .command i → i.wf = true) ∧
  (∀ (line : List Char) (is : List Instr), commandsOfLine line = some is → ∀ i ∈ is, i.wf = true) ∧
  ∀ (name ks ds : List Char) (k d : Nat) (bs : List (List Char × Nat)),
    Spells ks k → Spells ds d → (∀ b ∈ bs, Spells b.1 b.2) →
    (Names name ['C', 'F', 'G'] → assembleLine (name ++ [' ', '#'] ++ ds) =
      if d ≤ 255 then .command (.cfg (BitVec.ofNat 8 d)) else .refused) ∧
    (Names name ['V', 'A', 'L'] → assembleLine (name ++ [' '] ++ ks) =
      if k ≤ 255 then .command (.val k) else .refused) ∧
    (Names name ['A', 'D', 'V'] → assembleLine (name ++ [' '] ++ ks) =
      if k ≤ 255 then .command (.adv k) else .refused) ∧
    (Names name ['X', 'O', 'R'] → assembleLine (name ++ [' ', '#'] ++ ds) =
      if d ≤ 255 then .command (.xor (BitVec.ofNat 8 d)) else .refused) ∧
    (Names name ['R', 'D', 'P', 'O', 'S'] →
      (assembleLine (name ++ [' '] ++ ks ++ [',', ' '] ++ ds) =
        if k ≤ 255 ∧ d ≤ 7 then .command (.rdpos k ([Wheel.a, .b, .c, .d, .e, .f, .g, .h].getD d .a))
        else .refused) ∧
      ∀ w, assembleLine (name ++ [' '] ++ ks ++ [',', ' ', wheelLetter w]) =
        if k ≤ 255 then .command (.rdpos k w) else .refused) ∧
    (Names name ['K', 'E', 'Y'] →
      (assembleLine (name ++ [' '] ++ ks ++ [',', ' ', '#'] ++ ds) =
        if k ≤ 255 ∧ d < 2 ^ 64 then .command (.key k (BitVec.ofNat 64 d)) else .refused) ∧
      assembleLine (name ++ [' '] ++ ks ++ [',', ' '] ++ braced (bs.map Prod.fst)) =
        if k ≤ 255 ∧ bs.length = 8 ∧ ∀ b ∈ bs, b.2 ≤ 255 then
          .command (.key k (BitVec.ofNat 64 (Nat.ofDigits 256 (bs.map Prod.snd))))
        else .refused)

/-- A line of a program is its command, or the expansion of its pseudo-instruction: PROCESS, ENCRYPT and DECRYPT are one
XOR per byte in order, nothing for an empty list; CHAIN n is CFG #n and then KEY 0 to KEY n-1 with the n keys; SKIP L is
L times CADV. A byte, a length or a key that does not fit, or a number of keys that is not n, is refused (R73, R72; that
the keys are written as KEY writes them, that the count of keys is checked, and how numbers and spaces are read, is the
model's choice, notes/assumptions/12.md). -/
def Obligations.PseudoInstructionsExpandToTheirCommands : Prop :=
  (∀ (line : List Char) (i : Instr), assembleLine line = .command i → commandsOfLine line = some [i]) ∧
  ∀ (name ns : List Char) (n : Nat) (bs keys : List (List Char × Nat)),
    Spells ns n → (∀ b ∈ bs, Spells b.1 b.2) → (∀ q ∈ keys, Spells q.1 q.2) →
    ((Names name ['P', 'R', 'O', 'C', 'E', 'S', 'S'] ∨ Names name ['E', 'N', 'C', 'R', 'Y', 'P', 'T'] ∨
        Names name ['D', 'E', 'C', 'R', 'Y', 'P', 'T']) →
      commandsOfLine (name ++ [' '] ++ braced (bs.map Prod.fst)) =
        if ∀ b ∈ bs, b.2 ≤ 255 then some (bs.map fun b => .xor (BitVec.ofNat 8 b.2)) else none) ∧
    (Names name ['C', 'H', 'A', 'I', 'N'] →
      commandsOfLine (name ++ [' '] ++ ns ++ [',', ' '] ++ braced (keys.map fun q => '#' :: q.1)) =
        if n ≤ 255 ∧ keys.length = n ∧ ∀ q ∈ keys, q.2 < 2 ^ 64 then
          some (.cfg (BitVec.ofNat 8 n) :: keys.mapIdx fun j q => .key j (BitVec.ofNat 64 q.2))
        else none) ∧
    (Names name ['S', 'K', 'I', 'P'] → commandsOfLine (name ++ [' '] ++ ns) = some (List.replicate n .cadv))
end

