-- ==== Sys2Proof/Laws/Assembler.lean ====
section
/-! SUPPORT. The laws of the assembler's lexer and numbers (R72): a word is read whole up to the character that ends
it, and a list of digits is the number it writes. -/

namespace Sys2Proof.Machine

/-- A character that can stand in a word. -/
abbrev WordChar (c : Char) : Prop := c.isAlphanum = true ∧ c ≠ ';'

/-- The characters of a word join the word read so far. -/
theorem lexFrom_append {ws : List Char} (h : ∀ c ∈ ws, WordChar c) (acc rest : List Char) :
    lexFrom acc (ws ++ rest) = lexFrom (ws.reverse ++ acc) rest := by
  induction ws generalizing acc with
  | nil => rfl
  | cons c ws ih =>
    have hc := h c (by simp)
    simp only [List.cons_append, lexFrom, if_neg hc.2, if_pos hc.1]
    rw [ih fun x hx => h x (by simp [hx])]
    simp

theorem wordToken_reverse {ws : List Char} (h : ws ≠ []) : wordToken ws.reverse = [.word ws] := by
  unfold wordToken
  cases hr : ws.reverse with
  | nil => exact absurd (List.reverse_eq_nil_iff.mp hr) h
  | cons c cs => simp only [← hr, List.reverse_reverse]

/-- A word that ends the line. -/
theorem lexFrom_word {ws : List Char} (h : ∀ c ∈ ws, WordChar c) (hne : ws ≠ []) : lexFrom [] ws = [.word ws] := by
  have := lexFrom_append h [] []
  rw [List.append_nil] at this
  rw [this, List.append_nil, lexFrom, wordToken_reverse hne]

/-- A word and the character that ends it. -/
theorem lexFrom_word_cons {ws : List Char} (h : ∀ c ∈ ws, WordChar c) (hne : ws ≠ []) {c : Char}
    (hc : c.isAlphanum = false) (hc' : c ≠ ';') (rest : List Char) :
    lexFrom [] (ws ++ c :: rest) = .word ws :: (separatorToken c ++ lexFrom [] rest) := by
  rw [lexFrom_append h, List.append_nil, lexFrom, if_neg hc', if_neg (by simp [hc]), wordToken_reverse hne]
  rfl

/-- A character between words. -/
theorem lexFrom_separator {c : Char} (hc : c.isAlphanum = false) (hc' : c ≠ ';') (rest : List Char) :
    lexFrom [] (c :: rest) = separatorToken c ++ lexFrom [] rest := by
  rw [lexFrom, if_neg hc', if_neg (by simp [hc])]
  rfl

/-- Digits below the base are read as the number they write. -/
theorem digitsValue_eq_foldl {base : Nat} {value : Char → Nat} {cs : List Char}
    (h : ∀ c ∈ cs, digitValue c = some (value c) ∧ value c < base) (acc : Nat) :
    digitsValue base acc cs = some (cs.foldl (fun v c => base * v + value c) acc) := by
  induction cs generalizing acc with
  | nil => rfl
  | cons c cs ih =>
    have hc := h c (by simp)
    simp only [digitsValue, hc.1, if_pos hc.2, List.foldl_cons]
    exact ih (fun x hx => h x (by simp [hx])) _

/-- A letter or digit in upper case is one in either case. -/
theorem wordChar_of_toUpper {c : Char} (h : WordChar c.toUpper) : WordChar c := by
  unfold Char.toUpper at h
  split at h
  · next hc =>
    have hl : c.isLower = true := by simpa [Char.isLower] using hc
    refine ⟨by simp [Char.isAlphanum, Char.isAlpha, hl], ?_⟩
    rintro rfl
    exact absurd hl (by decide)
  · exact h

end Sys2Proof.Machine
end

