-- ==== Sys2Proof/Laws/Decode.lean ====
section
/-! SUPPORT. The laws of decoding: a word that matches a row decodes to the row's command, no two rows match one word,
and a word that matches no row is rejected. -/

namespace Sys2Proof

/-- Two rows that share a bit position in both masks with different patterns there are matched by no common word. -/
theorem rowMatches_incompatible {cw : CommandWord} {r r' : DecodeRow} (h : rowMatches cw r = true)
    (h' : rowMatches cw r' = true) : r.pattern &&& r'.mask = r'.pattern &&& r.mask := by
  simp only [rowMatches, beq_iff_eq] at h h'
  rw [← h, ← h', BitVec.and_assoc, BitVec.and_assoc, BitVec.and_comm r.mask r'.mask]

/-- No two rows of the table match one word (R68). -/
theorem row_unique {cw : CommandWord} {r r' : DecodeRow} (hr : r ∈ decodeTable) (hr' : r' ∈ decodeTable)
    (h : rowMatches cw r = true) (h' : rowMatches cw r' = true) : r = r' := by
  have hall : ∀ r ∈ decodeTable, ∀ r' ∈ decodeTable,
      r.pattern &&& r'.mask = r'.pattern &&& r.mask → r = r' := by decide
  exact hall r hr r' hr' (rowMatches_incompatible h h')

/-- A word that matches a row decodes to that row's command (R68). -/
theorem decode_of_row {cw : CommandWord} {keyin : KeyOperand} {r : DecodeRow} (hr : r ∈ decodeTable)
    (h : rowMatches cw r = true) : decode cw keyin = .ok (instrOfRow r.mnemonic cw keyin) := by
  unfold decode
  cases hf : decodeTable.find? (rowMatches cw) with
  | none => exact absurd h (by simpa using List.find?_eq_none.mp hf r hr)
  | some q =>
    rw [row_unique hr (List.mem_of_find?_eq_some hf) h (List.find?_some hf)]

/-- A word that matches no row is rejected (R68). -/
theorem decode_of_no_row {cw : CommandWord} {keyin : KeyOperand} (h : ∀ r ∈ decodeTable, rowMatches cw r = false) :
    decode cw keyin = .error (illegalKind cw) := by
  unfold decode
  rw [List.find?_eq_none.mpr fun r hr => by simp [h r hr]]

/-- What a decoded command is: the command of a row the word matches. -/
theorem row_of_decode {cw : CommandWord} {keyin : KeyOperand} {i : Instr} (h : decode cw keyin = .ok i) :
    ∃ r ∈ decodeTable, rowMatches cw r = true ∧ i = instrOfRow r.mnemonic cw keyin := by
  unfold decode at h
  cases hf : decodeTable.find? (rowMatches cw) with
  | none => rw [hf] at h; cases h
  | some r =>
    rw [hf] at h
    exact ⟨r, List.mem_of_find?_eq_some hf, List.find?_some hf, (Except.ok.inj h).symm⟩

/-- What a rejection means: the word matches no row. -/
theorem no_row_of_decode {cw : CommandWord} {keyin : KeyOperand} {e : IllegalWord} (h : decode cw keyin = .error e) :
    ∀ r ∈ decodeTable, rowMatches cw r = false := by
  intro r hr
  cases hm : rowMatches cw r with
  | false => rfl
  | true => rw [decode_of_row hr hm] at h; cases h

theorem instrOfRow_mnemonic (m : Mnemonic) (cw : CommandWord) (keyin : KeyOperand) :
    (instrOfRow m cw keyin).mnemonic = m := by
  cases m <;> rfl

theorem instrOfRow_wf (m : Mnemonic) (cw : CommandWord) (keyin : KeyOperand) :
    (instrOfRow m cw keyin).wf = true := by
  have hk : stageFits (fieldK cw).toNat = true := by
    have := (fieldK cw).isLt
    simp only [stageFits, decide_eq_true_eq]
    omega
  cases m <;> first | rfl | exact hk

/-! ### Fields of a packed word -/

theorem fieldOp_packFields (op : BitVec 4) (w : BitVec 3) (k d : BitVec 8) : fieldOp (packFields op w k d) = op := by
  ext i hi
  simp only [fieldOp, packFields, BitVec.getElem_extractLsb', BitVec.getLsbD_append]
  have h : ¬ 28 + i < 8 ∧ ¬ 28 + i - 8 < 8 ∧ ¬ 28 + i - 8 - 8 < 3 ∧ ¬ 28 + i - 8 - 8 - 3 < 9 := by omega
  simp only [h.1, h.2.1, h.2.2.1, h.2.2.2, if_false]
  rw [show 28 + i - 8 - 8 - 3 - 9 = i by omega]
  simp [BitVec.getLsbD_eq_getElem, hi]

theorem fieldW_packFields (op : BitVec 4) (w : BitVec 3) (k d : BitVec 8) : fieldW (packFields op w k d) = w := by
  ext i hi
  simp only [fieldW, packFields, BitVec.getElem_extractLsb', BitVec.getLsbD_append]
  have h : ¬ 16 + i < 8 ∧ ¬ 16 + i - 8 < 8 ∧ 16 + i - 8 - 8 < 3 := by omega
  simp only [h.1, h.2.1, h.2.2, if_false, if_true]
  rw [show 16 + i - 8 - 8 = i by omega]
  simp [BitVec.getLsbD_eq_getElem, hi]

theorem fieldK_packFields (op : BitVec 4) (w : BitVec 3) (k d : BitVec 8) : fieldK (packFields op w k d) = k := by
  ext i hi
  simp only [fieldK, packFields, BitVec.getElem_extractLsb', BitVec.getLsbD_append]
  have h : ¬ 8 + i < 8 ∧ 8 + i - 8 < 8 := by omega
  simp only [h.1, h.2, if_false, if_true]
  rw [show 8 + i - 8 = i by omega]
  simp [BitVec.getLsbD_eq_getElem, hi]

theorem fieldD_packFields (op : BitVec 4) (w : BitVec 3) (k d : BitVec 8) : fieldD (packFields op w k d) = d := by
  ext i hi
  simp only [fieldD, packFields, BitVec.getElem_extractLsb', BitVec.getLsbD_append, Nat.zero_add]
  simp [hi, BitVec.getLsbD_eq_getElem]

theorem stageField_toNat {k : Nat} (h : stageFits k = true) : (stageField k).toNat = k := by
  have : k ≤ 255 := by simpa [stageFits] using h
  simp only [stageField, BitVec.toNat_ofNat]
  omega

theorem Wheel.ofField_wheelField (w : Wheel) : Wheel.ofField (wheelField w) = w := by
  cases w <;> decide

theorem wheelField_ofField (f : BitVec 3) : wheelField (Wheel.ofField f) = f := by
  revert f
  decide

/-- A word is its fields, most significant first (R61). -/
theorem packed_fields (cw : CommandWord) :
    cw = fieldOp cw ++ fieldRsv cw ++ fieldW cw ++ fieldK cw ++ fieldD cw := by
  apply BitVec.eq_of_getLsbD_eq
  intro i hi
  simp only [fieldOp, fieldRsv, fieldW, fieldK, fieldD, BitVec.getLsbD_append, BitVec.getLsbD_extractLsb']
  split
  · simp_all
  · split
    · rw [show 8 + (i - 8) = i by omega]; simp_all
    · split
      · rw [show 16 + (i - 8 - 8) = i by omega]; simp_all
      · split
        · rw [show 19 + (i - 8 - 8 - 3) = i by omega]; simp_all
        · rw [show 28 + (i - 8 - 8 - 3 - 9) = i by omega]
          simp only [show i - 8 - 8 - 3 - 9 < 4 by omega, decide_true, Bool.true_and]

/-- In a word that matches a row, a field whose bits the row's mask compares whole holds what the row's pattern holds
there (R68). -/
theorem field_of_rowMatches {cw : CommandWord} {r : DecodeRow} {start len : Nat}
    (hmask : r.mask.extractLsb' start len = BitVec.allOnes len) (h : rowMatches cw r = true) :
    cw.extractLsb' start len = r.pattern.extractLsb' start len := by
  have h : cw &&& r.mask = r.pattern := by simpa [rowMatches] using h
  rw [← h, BitVec.extractLsb'_and, hmask, BitVec.and_allOnes]

theorem fieldOp_of_rowMatches {cw : CommandWord} {r : DecodeRow} (hr : r ∈ decodeTable)
    (h : rowMatches cw r = true) : fieldOp cw = r.mnemonic.op := by
  have hall : ∀ r ∈ decodeTable, r.mask.extractLsb' 28 4 = BitVec.allOnes 4 ∧
      r.pattern.extractLsb' 28 4 = r.mnemonic.op := by decide
  exact (field_of_rowMatches (hall r hr).1 h).trans (hall r hr).2

theorem fieldRsv_of_rowMatches {cw : CommandWord} {r : DecodeRow} (hr : r ∈ decodeTable)
    (h : rowMatches cw r = true) : fieldRsv cw = 0#9 := by
  have hall : ∀ r ∈ decodeTable, r.mask.extractLsb' 19 9 = BitVec.allOnes 9 ∧
      r.pattern.extractLsb' 19 9 = 0#9 := by decide
  exact (field_of_rowMatches (hall r hr).1 h).trans (hall r hr).2

end Sys2Proof
end

