-- ==== Sys2Proof/Laws/State.lean ====
section
/-! SUPPORT. One lemma per field per update of State, true by rfl, so that no later proof unfolds a record update. -/

namespace Sys2Proof.Machine

/-! ### respond -/

@[simp] theorem State.respond_stages (s : State) (st : Status) (data : Byte) (flag : Bool) :
    (s.respond st data flag).stages = s.stages := rfl

@[simp] theorem State.respond_n (s : State) (st : Status) (data : Byte) (flag : Bool) :
    (s.respond st data flag).n = s.n := rfl

@[simp] theorem State.respond_memory (s : State) (st : Status) (data : Byte) (flag : Bool) :
    (s.respond st data flag).memory = s.memory := rfl

@[simp] theorem State.respond_pending (s : State) (st : Status) (data : Byte) (flag : Bool) :
    (s.respond st data flag).pending = s.pending := rfl

@[simp] theorem State.respond_pc (s : State) (st : Status) (data : Byte) (flag : Bool) :
    (s.respond st data flag).pc = s.pc := rfl

@[simp] theorem State.respond_response (s : State) (st : Status) (data : Byte) (flag : Bool) :
    (s.respond st data flag).response = some ⟨st, data, flag⟩ := rfl

/-! ### setPos -/

@[simp] theorem State.setPos_stages (s : State) (k : Nat) (p : Positions) :
    (s.setPos k p).stages = s.stages.set k (some p) := rfl

@[simp] theorem State.setPos_n (s : State) (k : Nat) (p : Positions) :
    (s.setPos k p).n = s.n := rfl

@[simp] theorem State.setPos_memory (s : State) (k : Nat) (p : Positions) :
    (s.setPos k p).memory = s.memory := rfl

@[simp] theorem State.setPos_pending (s : State) (k : Nat) (p : Positions) :
    (s.setPos k p).pending = s.pending := rfl

@[simp] theorem State.setPos_pc (s : State) (k : Nat) (p : Positions) :
    (s.setPos k p).pc = s.pc := rfl

@[simp] theorem State.setPos_response (s : State) (k : Nat) (p : Positions) :
    (s.setPos k p).response = s.response := rfl

/-! ### setChain -/

@[simp] theorem State.setChain_stages (s : State) (ps : List Positions) :
    (s.setChain ps).stages = ps.map some ++ s.stages.drop ps.length := rfl

@[simp] theorem State.setChain_n (s : State) (ps : List Positions) :
    (s.setChain ps).n = s.n := rfl

@[simp] theorem State.setChain_memory (s : State) (ps : List Positions) :
    (s.setChain ps).memory = s.memory := rfl

@[simp] theorem State.setChain_pending (s : State) (ps : List Positions) :
    (s.setChain ps).pending = s.pending := rfl

@[simp] theorem State.setChain_pc (s : State) (ps : List Positions) :
    (s.setChain ps).pc = s.pc := rfl

@[simp] theorem State.setChain_response (s : State) (ps : List Positions) :
    (s.setChain ps).response = s.response := rfl

/-! ### setN -/

@[simp] theorem State.setN_stages (s : State) (n : Byte) :
    (s.setN n).stages = s.stages := rfl

@[simp] theorem State.setN_n (s : State) (n : Byte) :
    (s.setN n).n = n := rfl

@[simp] theorem State.setN_memory (s : State) (n : Byte) :
    (s.setN n).memory = s.memory := rfl

@[simp] theorem State.setN_pending (s : State) (n : Byte) :
    (s.setN n).pending = s.pending := rfl

@[simp] theorem State.setN_pc (s : State) (n : Byte) :
    (s.setN n).pc = s.pc := rfl

@[simp] theorem State.setN_response (s : State) (n : Byte) :
    (s.setN n).response = s.response := rfl

/-! ### connectByte -/

@[simp] theorem State.connectByte_stages (s : State) (k : Fin s.nmax) (w : Wheel) (i : Fin w.modulus) (v : Byte) :
    (s.connectByte k w i v).stages = s.stages := rfl

@[simp] theorem State.connectByte_n (s : State) (k : Fin s.nmax) (w : Wheel) (i : Fin w.modulus) (v : Byte) :
    (s.connectByte k w i v).n = s.n := rfl

@[simp] theorem State.connectByte_memory (s : State) (k : Fin s.nmax) (w : Wheel) (i : Fin w.modulus) (v : Byte) :
    (s.connectByte k w i v).memory = s.memory.write (tableAddress k w i) v := rfl

@[simp] theorem State.connectByte_pending (s : State) (k : Fin s.nmax) (w : Wheel) (i : Fin w.modulus) (v : Byte) :
    (s.connectByte k w i v).pending = s.pending := rfl

@[simp] theorem State.connectByte_pc (s : State) (k : Fin s.nmax) (w : Wheel) (i : Fin w.modulus) (v : Byte) :
    (s.connectByte k w i v).pc = s.pc := rfl

@[simp] theorem State.connectByte_response (s : State) (k : Fin s.nmax) (w : Wheel) (i : Fin w.modulus) (v : Byte) :
    (s.connectByte k w i v).response = s.response := rfl

/-! ### connectTable -/

@[simp] theorem State.connectTable_stages (s : State) (k : Fin s.nmax) (w : Wheel) (table : WheelTable w) :
    (s.connectTable k w table).stages = s.stages := rfl

@[simp] theorem State.connectTable_n (s : State) (k : Fin s.nmax) (w : Wheel) (table : WheelTable w) :
    (s.connectTable k w table).n = s.n := rfl

@[simp] theorem State.connectTable_memory (s : State) (k : Fin s.nmax) (w : Wheel) (table : WheelTable w) :
    (s.connectTable k w table).memory = s.memory.writeAll (tableCells k w table) := rfl

@[simp] theorem State.connectTable_pending (s : State) (k : Fin s.nmax) (w : Wheel) (table : WheelTable w) :
    (s.connectTable k w table).pending = s.pending := rfl

@[simp] theorem State.connectTable_pc (s : State) (k : Fin s.nmax) (w : Wheel) (table : WheelTable w) :
    (s.connectTable k w table).pc = s.pc := rfl

@[simp] theorem State.connectTable_response (s : State) (k : Fin s.nmax) (w : Wheel) (table : WheelTable w) :
    (s.connectTable k w table).response = s.response := rfl

/-! ### connectTables -/

@[simp] theorem State.connectTables_stages (s : State) (ts : Fin s.nmax → TableSet) :
    (s.connectTables ts).stages = s.stages := rfl

@[simp] theorem State.connectTables_n (s : State) (ts : Fin s.nmax → TableSet) :
    (s.connectTables ts).n = s.n := rfl

@[simp] theorem State.connectTables_memory (s : State) (ts : Fin s.nmax → TableSet) :
    (s.connectTables ts).memory = s.memory.writeAll
      ((List.finRange s.nmax).flatMap fun (k : Fin s.nmax) => Wheel.all.flatMap fun w => tableCells k w (ts k w)) := rfl

@[simp] theorem State.connectTables_pending (s : State) (ts : Fin s.nmax → TableSet) :
    (s.connectTables ts).pending = s.pending := rfl

@[simp] theorem State.connectTables_pc (s : State) (ts : Fin s.nmax → TableSet) :
    (s.connectTables ts).pc = s.pc := rfl

@[simp] theorem State.connectTables_response (s : State) (ts : Fin s.nmax → TableSet) :
    (s.connectTables ts).response = s.response := rfl

/-! ### present -/

@[simp] theorem State.present_stages (s : State) (rest : List HostInput) :
    (s.present rest).stages = s.stages := rfl

@[simp] theorem State.present_n (s : State) (rest : List HostInput) :
    (s.present rest).n = s.n := rfl

@[simp] theorem State.present_memory (s : State) (rest : List HostInput) :
    (s.present rest).memory = s.memory := rfl

@[simp] theorem State.present_pending (s : State) (rest : List HostInput) :
    (s.present rest).pending = rest := rfl

@[simp] theorem State.present_pc (s : State) (rest : List HostInput) :
    (s.present rest).pc = s.pc := rfl

@[simp] theorem State.present_response (s : State) (rest : List HostInput) :
    (s.present rest).response = s.response := rfl

/-! ### presentCommand -/

@[simp] theorem State.presentCommand_stages (s : State) (rest : List HostInput) :
    (s.presentCommand rest).stages = s.stages := rfl

@[simp] theorem State.presentCommand_n (s : State) (rest : List HostInput) :
    (s.presentCommand rest).n = s.n := rfl

@[simp] theorem State.presentCommand_memory (s : State) (rest : List HostInput) :
    (s.presentCommand rest).memory = s.memory := rfl

@[simp] theorem State.presentCommand_pending (s : State) (rest : List HostInput) :
    (s.presentCommand rest).pending = rest := rfl

@[simp] theorem State.presentCommand_pc (s : State) (rest : List HostInput) :
    (s.presentCommand rest).pc = s.pc + 1 := rfl

@[simp] theorem State.presentCommand_response (s : State) (rest : List HostInput) :
    (s.presentCommand rest).response = s.response := rfl

/-! ### resetBlock -/

@[simp] theorem State.resetBlock_stages (s : State) :
    (s.resetBlock).stages = List.replicate s.nmax none := rfl

@[simp] theorem State.resetBlock_n (s : State) :
    (s.resetBlock).n = 0x01#8 := rfl

@[simp] theorem State.resetBlock_memory (s : State) :
    (s.resetBlock).memory = s.memory := rfl

@[simp] theorem State.resetBlock_pending (s : State) :
    (s.resetBlock).pending = s.pending := rfl

@[simp] theorem State.resetBlock_pc (s : State) :
    (s.resetBlock).pc = s.pc := rfl

@[simp] theorem State.resetBlock_response (s : State) :
    (s.resetBlock).response = none := rfl

/-! ### queue -/

@[simp] theorem State.queue_stages (s : State) (is : List Instr) :
    (s.queue is).stages = s.stages := rfl

@[simp] theorem State.queue_n (s : State) (is : List Instr) :
    (s.queue is).n = s.n := rfl

@[simp] theorem State.queue_memory (s : State) (is : List Instr) :
    (s.queue is).memory = s.memory := rfl

@[simp] theorem State.queue_pending (s : State) (is : List Instr) :
    (s.queue is).pending = is.map presentation ++ s.pending := rfl

@[simp] theorem State.queue_pc (s : State) (is : List Instr) :
    (s.queue is).pc = s.pc := rfl

@[simp] theorem State.queue_response (s : State) (is : List Instr) :
    (s.queue is).response = s.response := rfl

/-! ### The views NMAX, POS, KEYED and the chain under the updates that leave the stages alone -/

@[simp] theorem State.respond_nmax (s : State) (st : Status) (data : Byte) (flag : Bool) :
    (s.respond st data flag).nmax = s.nmax := rfl

@[simp] theorem State.respond_pos (s : State) (st : Status) (data : Byte) (flag : Bool) (j : Nat) :
    (s.respond st data flag).pos j = s.pos j := rfl

@[simp] theorem State.respond_keyed (s : State) (st : Status) (data : Byte) (flag : Bool) (j : Nat) :
    (s.respond st data flag).keyed j = s.keyed j := rfl

@[simp] theorem State.respond_chain (s : State) (st : Status) (data : Byte) (flag : Bool) :
    (s.respond st data flag).chain = s.chain := rfl

@[simp] theorem State.present_nmax (s : State) (rest : List HostInput) :
    (s.present rest).nmax = s.nmax := rfl

@[simp] theorem State.present_pos (s : State) (rest : List HostInput) (j : Nat) :
    (s.present rest).pos j = s.pos j := rfl

@[simp] theorem State.present_keyed (s : State) (rest : List HostInput) (j : Nat) :
    (s.present rest).keyed j = s.keyed j := rfl

@[simp] theorem State.present_chain (s : State) (rest : List HostInput) :
    (s.present rest).chain = s.chain := rfl

@[simp] theorem State.presentCommand_nmax (s : State) (rest : List HostInput) :
    (s.presentCommand rest).nmax = s.nmax := rfl

@[simp] theorem State.presentCommand_pos (s : State) (rest : List HostInput) (j : Nat) :
    (s.presentCommand rest).pos j = s.pos j := rfl

@[simp] theorem State.presentCommand_keyed (s : State) (rest : List HostInput) (j : Nat) :
    (s.presentCommand rest).keyed j = s.keyed j := rfl

@[simp] theorem State.presentCommand_chain (s : State) (rest : List HostInput) :
    (s.presentCommand rest).chain = s.chain := rfl

@[simp] theorem State.queue_nmax (s : State) (is : List Instr) :
    (s.queue is).nmax = s.nmax := rfl

@[simp] theorem State.queue_pos (s : State) (is : List Instr) (j : Nat) :
    (s.queue is).pos j = s.pos j := rfl

@[simp] theorem State.queue_keyed (s : State) (is : List Instr) (j : Nat) :
    (s.queue is).keyed j = s.keyed j := rfl

@[simp] theorem State.queue_chain (s : State) (is : List Instr) :
    (s.queue is).chain = s.chain := rfl

@[simp] theorem State.setN_nmax (s : State) (n : Byte) :
    (s.setN n).nmax = s.nmax := rfl

@[simp] theorem State.setN_pos (s : State) (n : Byte) (j : Nat) :
    (s.setN n).pos j = s.pos j := rfl

@[simp] theorem State.setN_keyed (s : State) (n : Byte) (j : Nat) :
    (s.setN n).keyed j = s.keyed j := rfl

@[simp] theorem State.connectByte_nmax (s : State) (k : Fin s.nmax) (w : Wheel) (i : Fin w.modulus) (v : Byte) :
    (s.connectByte k w i v).nmax = s.nmax := rfl

@[simp] theorem State.connectByte_pos (s : State) (k : Fin s.nmax) (w : Wheel) (i : Fin w.modulus) (v : Byte) (j : Nat) :
    (s.connectByte k w i v).pos j = s.pos j := rfl

@[simp] theorem State.connectByte_keyed (s : State) (k : Fin s.nmax) (w : Wheel) (i : Fin w.modulus) (v : Byte) (j : Nat) :
    (s.connectByte k w i v).keyed j = s.keyed j := rfl

@[simp] theorem State.connectByte_chain (s : State) (k : Fin s.nmax) (w : Wheel) (i : Fin w.modulus) (v : Byte) :
    (s.connectByte k w i v).chain = s.chain := rfl

@[simp] theorem State.connectTable_nmax (s : State) (k : Fin s.nmax) (w : Wheel) (table : WheelTable w) :
    (s.connectTable k w table).nmax = s.nmax := rfl

@[simp] theorem State.connectTable_pos (s : State) (k : Fin s.nmax) (w : Wheel) (table : WheelTable w) (j : Nat) :
    (s.connectTable k w table).pos j = s.pos j := rfl

@[simp] theorem State.connectTable_keyed (s : State) (k : Fin s.nmax) (w : Wheel) (table : WheelTable w) (j : Nat) :
    (s.connectTable k w table).keyed j = s.keyed j := rfl

@[simp] theorem State.connectTable_chain (s : State) (k : Fin s.nmax) (w : Wheel) (table : WheelTable w) :
    (s.connectTable k w table).chain = s.chain := rfl

@[simp] theorem State.connectTables_nmax (s : State) (ts : Fin s.nmax → TableSet) :
    (s.connectTables ts).nmax = s.nmax := rfl

@[simp] theorem State.connectTables_pos (s : State) (ts : Fin s.nmax → TableSet) (j : Nat) :
    (s.connectTables ts).pos j = s.pos j := rfl

@[simp] theorem State.connectTables_keyed (s : State) (ts : Fin s.nmax → TableSet) (j : Nat) :
    (s.connectTables ts).keyed j = s.keyed j := rfl

@[simp] theorem State.connectTables_chain (s : State) (ts : Fin s.nmax → TableSet) :
    (s.connectTables ts).chain = s.chain := rfl

end Sys2Proof.Machine
end

