-- ==== Sys2Proof/Laws/Ops.lean ====
section
/-! SUPPORT. The laws of the shared operations: positions and their successors, the chain and its carry, the checks of
the commands (what each can answer), and runs. -/

namespace Sys2Proof

theorem Wheel.mem_all (w : Wheel) : w ∈ Wheel.all := by
  cases w <;> decide

theorem Wheel.modulus_le (w : Wheel) : w.modulus ≤ 256 := by
  cases w <;> decide

theorem Wheel.modulus_pos (w : Wheel) : 0 < w.modulus := by
  cases w <;> decide

end Sys2Proof

namespace Sys2Proof.Machine

/-! ### Positions -/

@[simp] theorem Positions.get_ofFn (f : Wheel → Byte) (w : Wheel) : (Positions.ofFn f).get w = f w := by
  cases w <;> rfl

/-- Positions are equal when every register is. -/
theorem Positions.eq_of_get {p q : Positions} (h : ∀ w, p.get w = q.get w) : p = q := by
  obtain ⟨pa, pb, pc, pd, pe, pf, pg, ph⟩ := p
  obtain ⟨qa, qb, qc, qd, qe, qf, qg, qh⟩ := q
  have ha : pa = qa := h .a
  have hb : pb = qb := h .b
  have hc : pc = qc := h .c
  have hd : pd = qd := h .d
  have he : pe = qe := h .e
  have hf : pf = qf := h .f
  have hg : pg = qg := h .g
  have hh : ph = qh := h .h
  subst ha hb hc hd he hf hg hh
  rfl

/-- The invariant of R21, wheel by wheel. -/
theorem Positions.inRange_iff {p : Positions} : p.inRange = true ↔ ∀ w, (p.get w).toNat < w.modulus := by
  simp only [Positions.inRange, List.all_eq_true, decide_eq_true_eq]
  exact ⟨fun h w => h w w.mem_all, fun h w _ => h w⟩

/-- The successor as a number, for an index of the wheel (R25). -/
theorem succ_toNat (w : Wheel) (i : Byte) : (succ w i).toNat = (i.toNat + 1) % w.modulus := by
  have := i.isLt
  have := w.modulus_le
  have := Nat.mod_lt (i.toNat + 1) w.modulus_pos
  cases w <;> simp only [succ, BitVec.toNat_add, BitVec.toNat_ofNat, Wheel.modulus] at * <;> omega

/-- A successor is below its modulus. -/
theorem succ_lt (w : Wheel) (i : Byte) : (succ w i).toNat < w.modulus := by
  rw [succ_toNat]
  exact Nat.mod_lt _ w.modulus_pos

@[simp] theorem Positions.advanced_get (p : Positions) (w : Wheel) : p.advanced.get w = succ w (p.get w) := by
  simp [Positions.advanced]

/-- ADVANCE_STAGE writes positions below their moduli. -/
theorem Positions.advanced_inRange (p : Positions) : p.advanced.inRange = true :=
  Positions.inRange_iff.mpr fun w => by simpa using succ_lt w (p.get w)

/-- The wrap bit: wheel a went from 255 to 0. -/
theorem wrapped_advanced (p : Positions) : wrapped p.advanced = (p.a == 0xFF#8) := by
  show (p.a + 1#8 == 0#8) = (p.a == 0xFF#8)
  generalize p.a = x
  revert x
  decide

/-- KEYSCHED writes positions below their moduli, whatever the key. -/
theorem keySchedule_inRange (keyin : KeyOperand) : (keySchedule keyin).inRange = true := by
  refine Positions.inRange_iff.mpr fun w => ?_
  have hlt : ∀ w : Wheel, (BitVec.ofNat 8 ((keyByte keyin w).toNat % w.modulus)).toNat < w.modulus := fun w => by
    rw [BitVec.toNat_ofNat]
    exact Nat.lt_of_le_of_lt (Nat.mod_le _ _) (Nat.mod_lt _ w.modulus_pos)
  cases w <;> simp only [keySchedule, Positions.get_ofFn] <;>
    first | exact (keyByte keyin .a).isLt | exact hlt _

/-! ### The chain -/

/-- A list of stages has positions exactly when every one of them is keyed. -/
theorem keyedPositions_eq_some {l : List (Option Positions)} {ps : List Positions} :
    keyedPositions l = some ps ↔ l = ps.map some := by
  induction l generalizing ps with
  | nil => cases ps <;> simp [keyedPositions]
  | cons st l ih =>
    cases st with
    | none => cases ps <;> simp [keyedPositions]
    | some p =>
      cases ps with
      | nil => simp [keyedPositions]
      | cons q qs => simp [keyedPositions, ih, and_comm]

/-- It has none exactly when one of them is not keyed. -/
theorem keyedPositions_eq_none {l : List (Option Positions)} : keyedPositions l = none ↔ none ∈ l := by
  induction l with
  | nil => simp [keyedPositions]
  | cons st l ih => cases st <;> simp [keyedPositions, ih]

@[simp] theorem advanceFrom_length (carry : Bool) (ps : List Positions) :
    (advanceFrom carry ps).1.length = ps.length := by
  induction ps generalizing carry with
  | nil => cases carry <;> rfl
  | cons p ps ih => cases carry <;> simp [advanceFrom, ih]

/-- Without a carry nothing moves and no carry leaves. -/
theorem advanceFrom_false (ps : List Positions) : advanceFrom false ps = (ps, false) := by
  induction ps with
  | nil => rfl
  | cons p ps ih => simp [advanceFrom, ih]

theorem advanceFrom_true_cons (p : Positions) (ps : List Positions) :
    advanceFrom true (p :: ps) =
      (p.advanced :: (advanceFrom (wrapped p.advanced) ps).1, (advanceFrom (wrapped p.advanced) ps).2) := rfl

/-- An advance keeps every position below its modulus. -/
theorem advanceFrom_inRange {ps : List Positions} (h : ∀ p ∈ ps, Positions.inRange p = true) (carry : Bool) :
    ∀ p ∈ (advanceFrom carry ps).1, Positions.inRange p = true := by
  induction ps generalizing carry with
  | nil => cases carry <;> simp [advanceFrom]
  | cons p ps ih =>
    have hps : ∀ q ∈ ps, Positions.inRange q = true := fun q hq => h q (by simp [hq])
    cases carry with
    | false => rw [advanceFrom_false]; exact h
    | true =>
      rw [advanceFrom_true_cons]
      intro q hq
      rcases List.mem_cons.mp hq with rfl | hq
      · exact p.advanced_inRange
      · exact ih hps _ q hq

@[simp] theorem cascadeAdvance_length (ps : List Positions) : (cascadeAdvance ps).1.length = ps.length :=
  advanceFrom_length true ps

theorem cascadeAdvance_inRange {ps : List Positions} (h : ∀ p ∈ ps, Positions.inRange p = true) :
    ∀ p ∈ (cascadeAdvance ps).1, Positions.inRange p = true :=
  advanceFrom_inRange h true

/-! ### POS and KEYED -/

theorem State.pos_eq_some {s : State} {k : Nat} {p : Positions} : s.pos k = some p ↔ s.stages[k]? = some (some p) := by
  unfold State.pos
  cases s.stages[k]? <;> simp

theorem State.lt_nmax_of_pos {s : State} {k : Nat} {p : Positions} (h : s.pos k = some p) : k < s.nmax :=
  (List.getElem?_eq_some_iff.mp (State.pos_eq_some.mp h)).1

theorem State.keyed_iff {s : State} {k : Nat} : s.keyed k = true ↔ ∃ p, s.pos k = some p := by
  simp [State.keyed, Option.isSome_iff_exists]

@[simp] theorem State.setPos_nmax (s : State) (k : Nat) (p : Positions) : (s.setPos k p).nmax = s.nmax := by
  simp [State.nmax]

/-! ### What the checks of the commands answer -/

theorem onStage_of_lt {k : Nat} {s : State} {body : Result} (h : k < s.nmax) : onStage k s body = body := by
  simp [onStage, Nat.not_le.mpr h]

theorem onStage_of_le {k : Nat} {s : State} {body : Result} (h : s.nmax ≤ k) :
    onStage k s body = raiseError .badStage s := by
  simp [onStage, h]

theorem onKeyedStage_of_pos {k : Nat} {s : State} {body : Positions → Result} {p : Positions} (h : s.pos k = some p) :
    onKeyedStage k s body = body p := by
  rw [onKeyedStage, onStage_of_lt (State.lt_nmax_of_pos h), h]

theorem onKeyedStage_of_le {k : Nat} {s : State} {body : Positions → Result} (h : s.nmax ≤ k) :
    onKeyedStage k s body = raiseError .badStage s :=
  onStage_of_le h

theorem onKeyedStage_of_unkeyed {k : Nat} {s : State} {body : Positions → Result} (hk : k < s.nmax)
    (h : s.pos k = none) : onKeyedStage k s body = raiseError .notKeyed s := by
  rw [onKeyedStage, onStage_of_lt hk, h]

/-- Everything the stage checks can answer. -/
theorem onKeyedStage_cases (k : Nat) (s : State) (body : Positions → Result) :
    (s.nmax ≤ k ∧ onKeyedStage k s body = raiseError .badStage s) ∨
    (k < s.nmax ∧ s.pos k = none ∧ onKeyedStage k s body = raiseError .notKeyed s) ∨
    ∃ p, s.pos k = some p ∧ onKeyedStage k s body = body p := by
  rcases Nat.lt_or_ge k s.nmax with hk | hk
  · cases h : s.pos k with
    | none => exact .inr (.inl ⟨hk, rfl, onKeyedStage_of_unkeyed hk h⟩)
    | some p => exact .inr (.inr ⟨p, rfl, onKeyedStage_of_pos h⟩)
  · exact .inl ⟨hk, onKeyedStage_of_le hk⟩

theorem State.chainLegal_iff {s : State} : s.chainLegal = true ↔ 1 ≤ s.n.toNat ∧ s.n.toNat ≤ s.nmax := by
  simp [State.chainLegal]

/-- Everything the chain checks can answer. -/
theorem onKeyedChain_cases (s : State) (body : List Positions → Result) :
    (s.chainLegal = false ∧ onKeyedChain s body = .fault .chainLengthOutOfRange) ∨
    (s.chainLegal = true ∧ s.chain = none ∧ onKeyedChain s body = raiseError .notKeyed s) ∨
    ∃ ps, s.chainLegal = true ∧ s.chain = some ps ∧ onKeyedChain s body = body ps := by
  unfold onKeyedChain
  cases s.chainLegal with
  | false => simp
  | true => cases s.chain <;> simp

theorem State.chain_eq_some {s : State} {ps : List Positions} :
    s.chain = some ps ↔ s.stages.take s.n.toNat = ps.map some :=
  keyedPositions_eq_some

theorem State.chain_length {s : State} {ps : List Positions} (hl : s.chainLegal = true) (h : s.chain = some ps) :
    ps.length = s.n.toNat := by
  have := congrArg List.length (State.chain_eq_some.mp h)
  have := (State.chainLegal_iff.mp hl).2
  simp only [List.length_take, List.length_map, State.nmax] at *
  omega

theorem onIndexDomain_of_inRange {ps : List Positions} {reason : Fault} {body : Result}
    (h : ∀ p ∈ ps, Positions.inRange p = true) : onIndexDomain ps reason body = body := by
  rw [onIndexDomain, if_pos (List.all_eq_true.mpr h)]

/-- Everything the index check can answer. -/
theorem onIndexDomain_cases (ps : List Positions) (reason : Fault) (body : Result) :
    ((∀ p ∈ ps, Positions.inRange p = true) ∧ onIndexDomain ps reason body = body) ∨
    ((∃ p ∈ ps, Positions.inRange p = false) ∧ onIndexDomain ps reason body = .fault reason) := by
  unfold onIndexDomain
  by_cases h : ps.all Positions.inRange = true
  · exact .inl ⟨List.all_eq_true.mp h, if_pos h⟩
  · refine .inr ⟨?_, if_neg h⟩
    simpa using h

/-! ### Runs -/

@[simp] theorem transcript_zero (s : State) : transcript 0 s = some ([], s) := rfl

/-- A run whose first step answers a next state with a response. -/
theorem transcript_succ {t : Nat} {s s' : State} {r : Response} (h : step s = .next s') (hr : s'.response = some r) :
    transcript (t + 1) s = (transcript t s').map fun q => (r :: q.1, q.2) := by
  simp [transcript, h, hr]

/-- A queued command is the next step's, when its words decode to it. -/
theorem step_queue_cons {s : State} {i : Instr} {is : List Instr}
    (h : decode (encodeWord i) (encodeKeyin i) = .ok i) :
    step (s.queue (i :: is)) = exec i (State.queue { s with pc := s.pc + 1 } is) := by
  have hp : (s.queue (i :: is)).pending =
      .command (encodeWord i) (encodeKeyin i) :: (is.map presentation ++ s.pending) := rfl
  rw [step, hp]
  simp only [h]
  rfl

end Sys2Proof.Machine
end

