-- ==== Sys2Proof/Laws/Exec.lean ====
section
/-! SUPPORT. The inversion lemma of `exec`: everything a command that answers a next state can have done. Later proofs
cite it instead of unfolding the meanings. -/

namespace Sys2Proof.Machine

/-- What a command writes when it completes from `s`: `u` is the state before its response. -/
def Writes (i : Instr) (s u : State) : Prop :=
  match i with
  | .nop => u = s
  | .cfg n => 1 ≤ n.toNat ∧ n.toNat ≤ s.nmax ∧ u = s.setN n
  | .key k keyin => k < s.nmax ∧ u = s.setPos k (keySchedule keyin)
  | .val k => (∃ p, s.pos k = some p) ∧ u = s
  | .adv k => ∃ p, s.pos k = some p ∧ p.inRange = true ∧ u = s.setPos k p.advanced
  | .rdpos k _ => (∃ p, s.pos k = some p) ∧ u = s
  | .cval => (∃ ps, s.chain = some ps) ∧ u = s
  | .cadv => ∃ ps, s.chainLegal = true ∧ s.chain = some ps ∧ (∀ p ∈ ps, Positions.inRange p = true) ∧
      u = s.setChain (cascadeAdvance ps).1
  | .xor _ => ∃ ps, s.chainLegal = true ∧ s.chain = some ps ∧ (∀ p ∈ ps, Positions.inRange p = true) ∧
      u = s.setChain (cascadeAdvance ps).1

/-- Why a command answers an error code from `s` (R142 to R144). -/
def Refuses (i : Instr) (s : State) (code : Status) : Prop :=
  match i with
  | .nop => False
  | .cfg n => code = .invalidConfig ∧ (n = 0#8 ∨ s.nmax < n.toNat)
  | .key k _ => code = .badStage ∧ s.nmax ≤ k
  | .val k => code = .badStage ∧ s.nmax ≤ k ∨ code = .notKeyed ∧ k < s.nmax ∧ s.pos k = none
  | .adv k => code = .badStage ∧ s.nmax ≤ k ∨ code = .notKeyed ∧ k < s.nmax ∧ s.pos k = none
  | .rdpos k _ => code = .badStage ∧ s.nmax ≤ k ∨ code = .notKeyed ∧ k < s.nmax ∧ s.pos k = none
  | .cval => code = .notKeyed ∧ s.chain = none
  | .cadv => code = .notKeyed ∧ s.chain = none
  | .xor _ => code = .notKeyed ∧ s.chain = none

theorem next_inj {s t : State} (h : (.next s : Result) = .next t) : t = s := by
  cases h
  rfl

theorem onIndexDomain_next {ps : List Positions} {reason : Fault} {body : Result} {t : State}
    (h : onIndexDomain ps reason body = .next t) : (∀ p ∈ ps, Positions.inRange p = true) ∧ body = .next t := by
  rcases onIndexDomain_cases ps reason body with ⟨hr, he⟩ | ⟨_, he⟩ <;> rw [he] at h
  · exact ⟨hr, h⟩
  · cases h

theorem onKeyedStage_next {k : Nat} {s t : State} {body : Positions → Result}
    (h : onKeyedStage k s body = .next t) :
    (s.nmax ≤ k ∧ t = s.respond .badStage 0x00#8 false) ∨
    (k < s.nmax ∧ s.pos k = none ∧ t = s.respond .notKeyed 0x00#8 false) ∨
    ∃ p, s.pos k = some p ∧ body p = .next t := by
  rcases onKeyedStage_cases k s body with ⟨hk, he⟩ | ⟨hk, hn, he⟩ | ⟨p, hp, he⟩ <;> rw [he] at h
  · exact .inl ⟨hk, next_inj h⟩
  · exact .inr (.inl ⟨hk, hn, next_inj h⟩)
  · exact .inr (.inr ⟨p, hp, h⟩)

theorem onKeyedChain_next {s t : State} {body : List Positions → Result} (h : onKeyedChain s body = .next t) :
    (s.chain = none ∧ t = s.respond .notKeyed 0x00#8 false) ∨
    ∃ ps, s.chainLegal = true ∧ s.chain = some ps ∧ body ps = .next t := by
  rcases onKeyedChain_cases s body with ⟨_, he⟩ | ⟨_, hn, he⟩ | ⟨ps, hl, hp, he⟩ <;> rw [he] at h
  · cases h
  · exact .inl ⟨hn, next_inj h⟩
  · exact .inr ⟨ps, hl, hp, h⟩

/-- Everything a command that answers a next state has done: it completed with exactly the writes of its rule and the
response OK, or it was refused for a reason of its rule and wrote nothing. -/
theorem exec_next {i : Instr} {s t : State} (h : exec i s = .next t) :
    (∃ data flag u, Writes i s u ∧ t = u.respond .ok data flag) ∨
    (∃ code, Refuses i s code ∧ t = s.respond code 0x00#8 false) := by
  cases i with
  | nop => exact .inl ⟨_, _, s, rfl, next_inj h⟩
  | cfg n =>
    simp only [exec, execCfg] at h
    split at h
    · next hn => exact .inr ⟨.invalidConfig, ⟨rfl, hn⟩, next_inj h⟩
    · next hn =>
      have hn0 : n.toNat ≠ 0 := fun h0 => hn (.inl (BitVec.eq_of_toNat_eq h0))
      exact .inl ⟨_, _, s.setN n, ⟨by omega, by omega, rfl⟩, next_inj h⟩
  | key k keyin =>
    simp only [exec, execKey] at h
    rcases Nat.lt_or_ge k s.nmax with hk | hk
    · rw [onStage_of_lt hk] at h
      exact .inl ⟨_, _, _, ⟨hk, rfl⟩, next_inj h⟩
    · rw [onStage_of_le hk] at h
      exact .inr ⟨.badStage, ⟨rfl, hk⟩, next_inj h⟩
  | val k =>
    rcases onKeyedStage_next h with ⟨hk, ht⟩ | ⟨hk, hn, ht⟩ | ⟨p, hp, hb⟩
    · exact .inr ⟨.badStage, .inl ⟨rfl, hk⟩, ht⟩
    · exact .inr ⟨.notKeyed, .inr ⟨rfl, hk, hn⟩, ht⟩
    · exact .inl ⟨_, _, s, ⟨⟨p, hp⟩, rfl⟩, next_inj (onIndexDomain_next hb).2⟩
  | adv k =>
    rcases onKeyedStage_next h with ⟨hk, ht⟩ | ⟨hk, hn, ht⟩ | ⟨p, hp, hb⟩
    · exact .inr ⟨.badStage, .inl ⟨rfl, hk⟩, ht⟩
    · exact .inr ⟨.notKeyed, .inr ⟨rfl, hk, hn⟩, ht⟩
    · have ⟨hr, hb⟩ := onIndexDomain_next hb
      exact .inl ⟨_, _, _, ⟨p, hp, hr p (by simp), rfl⟩, next_inj hb⟩
  | rdpos k w =>
    rcases onKeyedStage_next h with ⟨hk, ht⟩ | ⟨hk, hn, ht⟩ | ⟨p, hp, hb⟩
    · exact .inr ⟨.badStage, .inl ⟨rfl, hk⟩, ht⟩
    · exact .inr ⟨.notKeyed, .inr ⟨rfl, hk, hn⟩, ht⟩
    · exact .inl ⟨_, _, s, ⟨⟨p, hp⟩, rfl⟩, next_inj hb⟩
  | cval =>
    rcases onKeyedChain_next h with ⟨hn, ht⟩ | ⟨ps, _, hp, hb⟩
    · exact .inr ⟨.notKeyed, ⟨rfl, hn⟩, ht⟩
    · exact .inl ⟨_, _, s, ⟨⟨ps, hp⟩, rfl⟩, next_inj (onIndexDomain_next hb).2⟩
  | cadv =>
    rcases onKeyedChain_next h with ⟨hn, ht⟩ | ⟨ps, hl, hp, hb⟩
    · exact .inr ⟨.notKeyed, ⟨rfl, hn⟩, ht⟩
    · have ⟨hr, hb⟩ := onIndexDomain_next hb
      exact .inl ⟨_, _, _, ⟨ps, hl, hp, hr, rfl⟩, next_inj hb⟩
  | xor d =>
    rcases onKeyedChain_next h with ⟨hn, ht⟩ | ⟨ps, hl, hp, hb⟩
    · exact .inr ⟨.notKeyed, ⟨rfl, hn⟩, ht⟩
    · have ⟨hr, hb⟩ := onIndexDomain_next hb
      exact .inl ⟨_, _, _, ⟨ps, hl, hp, hr, rfl⟩, next_inj hb⟩

/-- Everything a step that answers a next state has done. -/
theorem step_next {s t : State} (h : step s = .next t) :
    (s.pending = [] ∧ t = s) ∨
    (∃ rest, s.pending = .reset :: rest ∧ t = (s.present rest).resetBlock) ∨
    (∃ cw keyin rest e, s.pending = .command cw keyin :: rest ∧ decode cw keyin = .error e ∧
      t = (s.presentCommand rest).respond .illegal 0x00#8 false) ∨
    (∃ cw keyin rest i, s.pending = .command cw keyin :: rest ∧ decode cw keyin = .ok i ∧
      exec i (s.presentCommand rest) = .next t) := by
  unfold step at h
  split at h
  · next hp => exact .inl ⟨hp, next_inj h⟩
  · next rest hp => exact .inr (.inl ⟨rest, hp, next_inj h⟩)
  · next cw keyin rest hp =>
    split at h
    · next i hd => exact .inr (.inr (.inr ⟨cw, keyin, rest, i, hp, hd, h⟩))
    · next e hd => exact .inr (.inr (.inl ⟨cw, keyin, rest, e, hp, hd, next_inj h⟩))

end Sys2Proof.Machine
end

