-- ==== Sys2Proof/Laws/Memory.lean ====
section
/-! SUPPORT. The laws of memory: every write keeps the canonical form, a read after a write of the same address gives
the value written, and a write leaves every other address alone. -/

namespace Sys2Proof.Machine

theorem Memory.read_nil (addr : Nat) : Memory.read [] addr = Config.unlistedTableByte := rfl

theorem Memory.read_consCell_same (addr : Nat) (v : Byte) (rest : Memory)
    (h : Memory.read rest addr = Config.unlistedTableByte) :
    (Memory.consCell addr v rest).read addr = v := by
  unfold Memory.consCell
  split
  · next hv => rw [h, hv]
  · simp [Memory.read]

theorem Memory.read_consCell_other (addr addr' : Nat) (v : Byte) (rest : Memory) (h : addr' ≠ addr) :
    (Memory.consCell addr v rest).read addr' = rest.read addr' := by
  unfold Memory.consCell
  split
  · rfl
  · simp [Memory.read, Ne.symm h]

/-- An address below every listed one is unlisted. -/
theorem Memory.read_below (m : Memory) (addr : Nat) (h : ∀ c ∈ m, addr < c.1) :
    m.read addr = Config.unlistedTableByte := by
  induction m with
  | nil => rfl
  | cons c m ih =>
    obtain ⟨x, v⟩ := c
    have hx : addr < x := h (x, v) (by simp)
    simp only [Memory.read, if_neg (Nat.ne_of_gt hx)]
    exact ih fun c hc => h c (by simp [hc])

theorem Memory.mem_consCell {c : Host.Cell} {addr : Nat} {v : Byte} {rest : Memory}
    (h : c ∈ Memory.consCell addr v rest) : c = (addr, v) ∨ c ∈ rest := by
  unfold Memory.consCell at h
  split at h
  · exact .inr h
  · simpa using h

/-- What a write lists: the address written, or what was listed before. -/
theorem Memory.mem_write {c : Host.Cell} {m : Memory} {addr : Nat} {v : Byte} (h : c ∈ m.write addr v) :
    c.1 = addr ∨ c ∈ m := by
  induction m with
  | nil => exact (Memory.mem_consCell h).imp (by rintro rfl; rfl) id
  | cons d m ih =>
    obtain ⟨x, b⟩ := d
    simp only [Memory.write] at h
    split at h
    · exact (Memory.mem_consCell h).imp (by rintro rfl; rfl) id
    · split at h
      · exact (Memory.mem_consCell h).imp (by rintro rfl; rfl) fun h => by simp [h]
      · rcases List.mem_cons.mp h with rfl | h
        · simp
        · exact (ih h).imp id fun h => by simp [h]

theorem Memory.wf_nil : Memory.wf [] := by simp [Memory.wf]

theorem Memory.wf_cons {x : Nat} {b : Byte} {m : Memory} :
    Memory.wf ((x, b) :: m) ↔ (∀ c ∈ m, x < c.1) ∧ b ≠ Config.unlistedTableByte ∧ Memory.wf m := by
  simp only [Memory.wf, List.map_cons, List.pairwise_cons, List.mem_map, List.forall_mem_cons]
  constructor
  · rintro ⟨⟨h1, h2⟩, h3, h4⟩
    exact ⟨fun c hc => h1 c.1 ⟨c, hc, rfl⟩, h3, h2, h4⟩
  · rintro ⟨h1, h3, h2, h4⟩
    exact ⟨⟨by rintro _ ⟨c, hc, rfl⟩; exact h1 c hc, h2⟩, h3, h4⟩

theorem Memory.wf_consCell {addr : Nat} {v : Byte} {rest : Memory} (h : rest.wf) (hb : ∀ c ∈ rest, addr < c.1) :
    (Memory.consCell addr v rest).wf := by
  unfold Memory.consCell
  split
  · exact h
  · next hv => exact Memory.wf_cons.mpr ⟨hb, hv, h⟩

/-- Every write keeps the canonical form. -/
theorem Memory.write_wf {m : Memory} (h : m.wf) (addr : Nat) (v : Byte) : (m.write addr v).wf := by
  induction m with
  | nil => exact Memory.wf_consCell h (by simp)
  | cons c m ih =>
    obtain ⟨x, b⟩ := c
    have ⟨hx, hb, hm⟩ := Memory.wf_cons.mp h
    simp only [Memory.write]
    split
    · next hlt =>
      refine Memory.wf_consCell h fun c hc => ?_
      rcases List.mem_cons.mp hc with rfl | hc
      · exact hlt
      · exact Nat.lt_trans hlt (hx c hc)
    · split
      · next heq => exact Memory.wf_consCell hm fun c hc => heq ▸ hx c hc
      · next hlt hne =>
        refine Memory.wf_cons.mpr ⟨fun c hc => ?_, hb, ih hm⟩
        rcases Memory.mem_write hc with h | h
        · omega
        · exact hx c h

/-- A read after a write of the same address. -/
theorem Memory.read_write_same {m : Memory} (h : m.wf) (addr : Nat) (v : Byte) : (m.write addr v).read addr = v := by
  induction m with
  | nil => exact Memory.read_consCell_same addr v [] rfl
  | cons c m ih =>
    obtain ⟨x, b⟩ := c
    have ⟨hx, hb, hm⟩ := Memory.wf_cons.mp h
    simp only [Memory.write]
    split
    · next hlt =>
      refine Memory.read_consCell_same addr v _ (Memory.read_below _ _ fun c hc => ?_)
      rcases List.mem_cons.mp hc with rfl | hc
      · exact hlt
      · exact Nat.lt_trans hlt (hx c hc)
    · split
      · next heq => exact Memory.read_consCell_same addr v _ (Memory.read_below _ _ fun c hc => heq ▸ hx c hc)
      · next hlt hne => simp only [Memory.read, if_neg (Ne.symm hne)]; exact ih hm

/-- A read after a write of another address. -/
theorem Memory.read_write_other {m : Memory} (addr addr' : Nat) (v : Byte) (hne : addr' ≠ addr) :
    (m.write addr v).read addr' = m.read addr' := by
  induction m with
  | nil => exact Memory.read_consCell_other addr addr' v [] hne
  | cons c m ih =>
    obtain ⟨x, b⟩ := c
    simp only [Memory.write]
    split
    · exact Memory.read_consCell_other addr addr' v _ hne
    · split
      · next heq =>
        rw [Memory.read_consCell_other addr addr' v _ hne]
        simp [Memory.read, show x ≠ addr' from heq ▸ Ne.symm hne]
      · simp only [Memory.read, ih]

/-- The entries of one stage's table set stay inside it. -/
theorem Wheel.offset_add_modulus_le (w : Wheel) : w.offset + w.modulus ≤ tableSetBytes := by
  cases w <;> decide

/-- Different entries of the wheel tables have different addresses. -/
theorem tableAddress_injective {k k' : Nat} {w w' : Wheel} {i i' : Nat} (hi : i < w.modulus) (hi' : i' < w'.modulus)
    (h : tableAddress k w i = tableAddress k' w' i') : k = k' ∧ w = w' ∧ i = i' := by
  have hk : k = k' := by
    have := Wheel.offset_add_modulus_le w
    have := Wheel.offset_add_modulus_le w'
    simp only [tableAddress, tableSetBytes] at *
    omega
  subst hk
  refine ⟨rfl, ?_⟩
  cases w <;> cases w' <;> simp only [tableAddress, Wheel.offset, Wheel.modulus] at hi hi' h <;>
    first | exact ⟨rfl, by omega⟩ | (exfalso; omega)

/-- An entry of a stage of the block lies in the table space. -/
theorem tableAddress_lt_tableSpace {s : State} {k : Nat} {w : Wheel} {i : Nat} (hk : k < s.nmax)
    (hi : i < w.modulus) : tableAddress k w i < s.tableSpace := by
  have := Wheel.offset_add_modulus_le w
  have : (k + 1) * tableSetBytes ≤ s.nmax * tableSetBytes := Nat.mul_le_mul_right _ hk
  simp only [tableAddress, State.tableSpace, Nat.add_mul, tableSetBytes] at *
  omega

/-! ### Connecting tables (R173, R147) -/

/-- Writing bytes one after the other keeps the canonical form. -/
theorem Memory.writeAll_wf {m : Memory} (h : m.wf) (cells : List Host.Cell) : (m.writeAll cells).wf := by
  induction cells generalizing m with
  | nil => exact h
  | cons c cells ih => exact ih (Memory.write_wf h c.1 c.2)

/-- What it lists: an address written, or what was listed before. -/
theorem Memory.mem_writeAll {c : Host.Cell} {m : Memory} {cells : List Host.Cell} (h : c ∈ m.writeAll cells) :
    (∃ d ∈ cells, c.1 = d.1) ∨ c ∈ m := by
  induction cells generalizing m with
  | nil => exact .inr h
  | cons d cells ih =>
    rcases ih h with ⟨e, he, hc⟩ | h
    · exact .inl ⟨e, by simp [he], hc⟩
    · exact (Memory.mem_write h).imp (fun hc => ⟨d, by simp, hc⟩) id

/-- An address that is not written reads as before. -/
theorem Memory.read_writeAll_other {m : Memory} {cells : List Host.Cell} {addr : Nat} (h : ∀ c ∈ cells, c.1 ≠ addr) :
    (m.writeAll cells).read addr = m.read addr := by
  induction cells generalizing m with
  | nil => rfl
  | cons c cells ih =>
    refine (ih fun d hd => h d (by simp [hd])).trans ?_
    exact Memory.read_write_other _ _ _ (Ne.symm (h c (by simp)))

/-- An address that is written, always with the same byte, reads as that byte. -/
theorem Memory.read_writeAll_of_mem {m : Memory} (hm : m.wf) {cells : List Host.Cell} {addr : Nat} {v : Byte}
    (hmem : (addr, v) ∈ cells) (h : ∀ c ∈ cells, c.1 = addr → c.2 = v) : (m.writeAll cells).read addr = v := by
  induction cells generalizing m with
  | nil => cases hmem
  | cons c cells ih =>
    have htail : ∀ d ∈ cells, d.1 = addr → d.2 = v := fun d hd => h d (by simp [hd])
    by_cases hrest : (addr, v) ∈ cells
    · exact ih (Memory.write_wf hm c.1 c.2) hrest htail
    · obtain rfl : (addr, v) = c := (List.mem_cons.mp hmem).resolve_right hrest
      have hother : ∀ d ∈ cells, d.1 ≠ addr := by
        rintro ⟨a, b⟩ hd rfl
        exact hrest (htail _ hd rfl ▸ hd)
      exact (Memory.read_writeAll_other (m := m.write addr v) hother).trans (Memory.read_write_same hm addr v)

/-- The cells of a table are its entries at their addresses. -/
theorem mem_tableCells {k : Nat} {w : Wheel} {table : WheelTable w} {c : Host.Cell} :
    c ∈ tableCells k w table ↔ ∃ i : Fin w.modulus, c = (tableAddress k w i, table[i]) := by
  simp [tableCells, eq_comm]

/-- The cells of the whole binding. -/
theorem mem_connectedCells {s : State} {ts : Fin s.nmax → TableSet} {c : Host.Cell} :
    (c ∈ (List.finRange s.nmax).flatMap fun (k : Fin s.nmax) => Wheel.all.flatMap fun w => tableCells k w (ts k w)) ↔
      ∃ (k : Fin s.nmax) (w : Wheel) (i : Fin w.modulus), c = (tableAddress k w i, (ts k w)[i]) := by
  have hall : ∀ w : Wheel, w ∈ Wheel.all := fun w => by cases w <;> decide
  simp only [List.mem_flatMap, List.mem_finRange, hall, true_and, mem_tableCells]

/-- Writing entries of the block's own tables keeps the invariant. -/
theorem State.inv_of_writes {s : State} (h : s.Inv) {m : Memory} (hwf : m.wf)
    (hm : ∀ c ∈ m, c ∈ s.memory ∨ ∃ (k : Fin s.nmax) (w : Wheel) (i : Fin w.modulus), c.1 = tableAddress k w i) :
    State.Inv { s with memory := m } := by
  refine ⟨h.1, h.2.1, h.2.2.1, hwf, fun c hc => ?_⟩
  rcases hm c hc with hc | ⟨k, w, i, hc⟩
  · exact h.2.2.2.2 c hc
  · exact hc ▸ tableAddress_lt_tableSpace k.isLt i.isLt

theorem State.connectByte_inv {s : State} (h : s.Inv) (k : Fin s.nmax) (w : Wheel) (i : Fin w.modulus) (v : Byte) :
    (s.connectByte k w i v).Inv :=
  State.inv_of_writes h (Memory.write_wf h.2.2.2.1 _ _) fun _ hc =>
    (Memory.mem_write hc).elim (fun hc => .inr ⟨k, w, i, hc⟩) .inl

theorem State.connectTable_inv {s : State} (h : s.Inv) (k : Fin s.nmax) (w : Wheel) (table : WheelTable w) :
    (s.connectTable k w table).Inv := by
  refine State.inv_of_writes h (Memory.writeAll_wf h.2.2.2.1 _) fun c hc => ?_
  rcases Memory.mem_writeAll hc with ⟨d, hd, hc⟩ | hc
  · obtain ⟨i, rfl⟩ := mem_tableCells.mp hd
    exact .inr ⟨k, w, i, hc⟩
  · exact .inl hc

theorem State.connectTables_inv {s : State} (h : s.Inv) (ts : Fin s.nmax → TableSet) : (s.connectTables ts).Inv := by
  refine State.inv_of_writes h (Memory.writeAll_wf h.2.2.2.1 _) fun c hc => ?_
  rcases Memory.mem_writeAll hc with ⟨d, hd, hc⟩ | hc
  · obtain ⟨k, w, i, rfl⟩ := mem_connectedCells.mp hd
    exact .inr ⟨k, w, i, hc⟩
  · exact .inl hc

end Sys2Proof.Machine
end

