-- ==== Sys2Proof/Laws/PerInstr.lean ====
section
/-! SUPPORT. Laws made per instruction (LAWS.json). EncodeMatchesRow: the encoder, written from the field layout of
R61, puts every command into the row that R68 gives its mnemonic. -/

namespace Sys2Proof.Laws

/-- A fact about every value of the K field holds of every stage index's field. -/
theorem stage_word_matches (op : BitVec 4) (pattern : CommandWord)
    (h : ∀ k : BitVec 8, (packFields op 0#3 k 0#8 &&& 0xFFFF00FF#32 == pattern) = true) (k : Nat) :
    (packFields op 0#3 (stageField k) 0#8 &&& 0xFFFF00FF#32 == pattern) = true :=
  h (stageField k)

end Sys2Proof.Laws

namespace Sys2Proof.Laws.EncodeMatchesRow

/-- The command's word matches the row of its own mnemonic. -/
def Statement (i : Instr) : Prop :=
  ∃ r ∈ decodeTable, r.mnemonic = i.mnemonic ∧ rowMatches (encodeWord i) r = true

theorem nop : Statement .nop := by
  refine ⟨⟨.nop, 0x00000000#32, 0xFFFFFFFF#32⟩, by decide, rfl, by decide⟩

theorem cfg (n : Byte) : Statement (.cfg n) := by
  refine ⟨⟨.cfg, 0x10000000#32, 0xFFFFFF00#32⟩, by decide, rfl, ?_⟩
  revert n
  decide

theorem key (k : Nat) (keyin : KeyOperand) : Statement (.key k keyin) :=
  ⟨⟨.key, 0x20000000#32, 0xFFFF00FF#32⟩, by decide, rfl, stage_word_matches _ _ (by decide) k⟩

theorem val (k : Nat) : Statement (.val k) :=
  ⟨⟨.val, 0x30000000#32, 0xFFFF00FF#32⟩, by decide, rfl, stage_word_matches _ _ (by decide) k⟩

theorem adv (k : Nat) : Statement (.adv k) :=
  ⟨⟨.adv, 0x40000000#32, 0xFFFF00FF#32⟩, by decide, rfl, stage_word_matches _ _ (by decide) k⟩

theorem rdpos (k : Nat) (w : Wheel) : Statement (.rdpos k w) := by
  refine ⟨⟨.rdpos, 0x50000000#32, 0xFFF800FF#32⟩, by decide, rfl, ?_⟩
  have h : ∀ k : BitVec 8, (packFields Mnemonic.rdpos.op (wheelField w) k 0#8 &&& 0xFFF800FF#32 == 0x50000000#32) = true := by
    cases w <;> decide
  exact h (stageField k)

theorem cval : Statement .cval := by
  refine ⟨⟨.cval, 0x60000000#32, 0xFFFFFFFF#32⟩, by decide, rfl, by decide⟩

theorem cadv : Statement .cadv := by
  refine ⟨⟨.cadv, 0x70000000#32, 0xFFFFFFFF#32⟩, by decide, rfl, by decide⟩

theorem xor (d : Byte) : Statement (.xor d) := by
  refine ⟨⟨.xor, 0x80000000#32, 0xFFFFFF00#32⟩, by decide, rfl, ?_⟩
  revert d
  decide

end Sys2Proof.Laws.EncodeMatchesRow
end

