-- ==== Sys2Proof/Tests/Slice0.lean ====
section
/-! SUPPORT. The model's own tests, each with its source in spec/ (the vectors of spec/95_test_vectors.md, which that
file derives from the rules and lists with their intermediate values), and, for every statement with hypotheses, a
witness that meets them. -/

namespace Sys2Proof.Tests

open Sys2Proof.Machine Sys2Proof.Claims

/-! ### Small states -/

/-- The fixture tables FXA of spec/95_test_vectors.md, Conventions. -/
def fxa (w : Wheel) (i : Nat) : Byte := BitVec.ofNat 8 (i * i + 17 * (w.index + 1) * i + 29 * w.index + 3)

/-- FXA connected to stage k at the eight entries the positions p select. -/
def withFxa (k : Nat) (p : Positions) (s : State) : State :=
  let cells := Wheel.all.map fun w => (tableAddress k w (p.get w).toNat, fxa w (p.get w).toNat)
  { s with memory := s.memory.writeAll cells }

/-- KA and KB of spec/95_test_vectors.md and the positions they give (K1, K2). -/
def keyA : KeyOperand := 0xEEF0F4F6F8FAFCFF#64
def keyB : KeyOperand := 0x0706050403020100#64
def posA : Positions := ⟨255, 252, 250, 248, 246, 244, 240, 238⟩
def posB : Positions := ⟨0, 1, 2, 3, 4, 5, 6, 7⟩
def allAt (x : Byte) : Positions := ⟨x, x, x, x, x, x, x, x⟩

/-- N = 1, stage 0 at p. -/
def one (p : Positions) : State := withFxa 0 p { State.reset with stages := [some p, none, none, none] }

/-- N = 2, stages 0 and 1 at p and q. -/
def two (p q : Positions) : State :=
  withFxa 1 q (withFxa 0 p { State.reset with stages := [some p, some q, none, none], n := 2 })

/-- N = 3, the start of G7. -/
def three : State :=
  { State.reset with stages := [some posA, some ⟨255, 0, 0, 0, 0, 0, 0, 0⟩, some posA, none], n := 3 }

/-- N = 2, stage 1 not keyed (G9). -/
def halfKeyed : State := { one posB with n := 2 }

/-- Every stage of the block keyed. -/
def allKeyed : State := { State.reset with stages := List.replicate 4 (some posA) }

/-- A state outside the invariant: wheel b at 253. -/
def outOfRange : State := { State.reset with stages := [some ⟨0, 253, 0, 0, 0, 0, 0, 0⟩] }

def after (r : Result) : Option State :=
  match r with
  | .next s => some s
  | .fault _ => none
  | .refused _ => none

def response (r : Result) : Option Response := (after r).bind State.response

/-- The state in which the host presents one word. -/
def presenting (cw : CommandWord) (keyin : KeyOperand) (s : State) : State :=
  { s with pending := [.command cw keyin] }

/-! ### Well-formedness: each check refuses an ill-formed term (R72) -/

theorem test_wf_key_refuses : (Instr.key 256 0).wf = false := by decide
theorem test_wf_val_refuses : (Instr.val 256).wf = false := by decide
theorem test_wf_adv_refuses : (Instr.adv 256).wf = false := by decide
theorem test_wf_rdpos_refuses : (Instr.rdpos 256 .a).wf = false := by decide

/-! ### Decoding: words written out from R61, R68 and the tables of 95 §2.7 -/

theorem test_decode_nop : decodeTableWord 32 0b0000_000000000_000_00000000_00000000 = some .nop := by decide
theorem test_decode_cfg : decodeTableWord 32 0b0001_000000000_000_00000000_11111111 = some (.cfg 255) := by decide
theorem test_decode_key :
    decodeTableWord 32 0b0010_000000000_000_00000100_00000000 = some (.key 4 0) ∧
    decode 0x20000100#32 keyB = .ok (.key 1 0x0706050403020100#64) := by decide
theorem test_decode_val : decodeTableWord 32 0b0011_000000000_000_00001001_00000000 = some (.val 9) := by decide
theorem test_decode_adv : decodeTableWord 32 0b0100_000000000_000_11111111_00000000 = some (.adv 255) := by decide
theorem test_decode_rdpos :
    decodeTableWord 32 0b0101_000000000_111_00000011_00000000 = some (.rdpos 3 .h) ∧
    decodeTableWord 32 0b0101_000000000_010_00000000_00000000 = some (.rdpos 0 .c) := by decide
theorem test_decode_cval : decodeTableWord 32 0b0110_000000000_000_00000000_00000000 = some .cval := by decide
theorem test_decode_cadv : decodeTableWord 32 0b0111_000000000_000_00000000_00000000 = some .cadv := by decide
theorem test_decode_xor : decodeTableWord 32 0b1000_000000000_000_00000000_11111111 = some (.xor 255) := by decide

/-- The illegal words of 95 §2.7. -/
theorem test_decode_illegal :
    ([0x00000001, 0x08000000, 0x10000105, 0x20080000, 0x20010000, 0x20000001, 0x50070001, 0x60000001, 0x80000100,
      0x90000000, 0x90000100, 0xF0000000, 0xFFFFFFFF].all fun w => decodeTableWord 32 w == none) = true := by decide

theorem test_encode_key : encode (.key 1 keyB) = (0x20000100#32, keyB) := by decide

/-! ### The commands -/

/-- R131. -/
theorem test_nop : response (exec .nop State.reset) = some ⟨.ok, 0, false⟩ := by decide

/-- G4. -/
theorem test_cfg_nmax : ((after (exec (.cfg 4) (two posA posB))).map State.n) = some 4 := by decide

/-- G3. -/
theorem test_cfg_above_nmax : response (exec (.cfg 5) (two posA posB)) = some ⟨.invalidConfig, 0, false⟩ := by decide

/-- K3: 255 mod M[w]. -/
theorem test_key_reduces :
    ((after (exec (.key 0 0xFFFFFFFFFFFFFFFF#64) State.reset)).bind (State.pos · 0)) =
      some ⟨255, 2, 4, 6, 8, 10, 14, 16⟩ := by decide

/-- K2: the lane order, and KEY on an inactive stage. -/
theorem test_key_lanes :
    ((after (exec (.key 3 keyB) State.reset)).map State.stages) = some [none, none, none, some posB] := by decide

/-- V1. -/
theorem test_val : response (exec (.val 0) (one posA)) = some ⟨.ok, 0x18, false⟩ := by decide

/-- V8. -/
theorem test_val_mixed : response (exec (.val 0) (one ⟨255, 2, 4, 6, 8, 10, 14, 16⟩)) = some ⟨.ok, 0x86, false⟩ := by decide

/-- A1: every wheel wraps; the flag. -/
theorem test_adv_wraps :
    response (exec (.adv 0) (one posA)) = some ⟨.ok, 0, true⟩ ∧
    ((after (exec (.adv 0) (one posA))).bind (State.pos · 0)) = some (allAt 0) := by decide

/-- A3: wheels b, d, f, g, h wrap without the flag. -/
theorem test_adv_no_flag :
    response (exec (.adv 0) (one ⟨254, 252, 0, 248, 100, 244, 240, 238⟩)) = some ⟨.ok, 0, false⟩ ∧
    ((after (exec (.adv 0) (one ⟨254, 252, 0, 248, 100, 244, 240, 238⟩))).bind (State.pos · 0)) =
      some ⟨255, 0, 1, 0, 101, 0, 0, 0⟩ := by decide

/-- 95 §2.4. -/
theorem test_rdpos : response (exec (.rdpos 0 .h) (one posB)) = some ⟨.ok, 0x07, false⟩ := by decide

/-- G5. -/
theorem test_cval : response (exec .cval (two posA posB)) = some ⟨.ok, 0x88, false⟩ := by decide

/-- G9. -/
theorem test_cval_not_keyed : response (exec .cval halfKeyed) = some ⟨.notKeyed, 0, false⟩ := by decide

/-- G7: the carry ripples through three stages. -/
theorem test_cadv_ripples :
    response (exec .cadv three) = some ⟨.ok, 0, true⟩ ∧
    ((after (exec .cadv three)).map State.stages) =
      some [some (allAt 0), some ⟨0, 1, 1, 1, 1, 1, 1, 1⟩, some (allAt 0), none] := by decide

/-- A carry stops at the first stage that does not wrap (P2, pc 3: stage 1 moves and does not wrap). -/
theorem test_cadv_stops :
    response (exec .cadv (two posA posB)) = some ⟨.ok, 0, false⟩ ∧
    ((after (exec .cadv (two posB posA))).map State.stages) =
      some [some ⟨1, 2, 3, 4, 5, 6, 7, 8⟩, some posA, none, none] := by decide

/-- X5: the value is taken before the advance, both stages wrap. -/
theorem test_xor_carry :
    response (exec (.xor 0x20) (two ⟨255, 1, 1, 1, 1, 1, 1, 1⟩ ⟨255, 2, 4, 6, 8, 10, 14, 16⟩)) =
      some ⟨.ok, 0xB0, true⟩ := by decide

/-- P2, pc 3. -/
theorem test_xor :
    response (exec (.xor 0x00) (two posA posB)) = some ⟨.ok, 0x88, false⟩ ∧
    ((after (exec (.xor 0x00) (two posA posB))).map State.stages) =
      some [some (allAt 0), some ⟨1, 2, 3, 4, 5, 6, 7, 8⟩, none, none] := by decide

/-! ### The step, reset, errors -/

/-- P4, pc 4: a reserved opcode; the host's pc moves on. -/
theorem test_step_illegal :
    response (step (presenting 0x90000000#32 0 State.reset)) = some ⟨.illegal, 0, false⟩ ∧
    ((after (step (presenting 0x90000000#32 0 State.reset))).map State.pc) = some 1 := by decide

/-- R145: VAL 9 just after reset with NMAX = 4 reports BAD_STAGE. -/
theorem test_step_priority :
    response (step (presenting 0x30000900#32 0 State.reset)) = some ⟨.badStage, 0, false⟩ := by decide

/-- R170. -/
theorem test_step_reset :
    ((after (step { three with pending := [.reset] })).map fun s => (s.stages, s.n, s.response)) =
      some ([none, none, none, none], 1, none) := by decide

/-- R140: the codes. -/
theorem test_status_codes :
    [Status.ok, .illegal, .invalidConfig, .badStage, .notKeyed].map Status.code = [0, 1, 2, 3, 4] := by decide

/-- A word placed by withFetchWord is run by the very next step. -/
theorem test_fetch_word :
    ((after (step (State.reset.withFetchWord 96 0x0706050403020100_20000100))).bind (State.pos · 1)) =
      some posB := by decide

/-- FXA values of the Conventions' table. -/
theorem test_fxa : fxa .a 255 = 0xF3 ∧ fxa .b 252 = 0xA8 ∧ fxa .h 238 = 0x82 ∧ fxa .g 1 = 0x29 := by decide

/-- R8, R48: one entry connected at the end of wheel h of the last stage of four, which is the last byte of the table
space. -/
theorem test_connect_last_entry :
    (State.reset.connectByte ⟨3, by decide⟩ .h ⟨238, by decide⟩ 0x82).memory = [(7923, 0x82)] := by decide

/-! ### The assembler (R72) -/

/-- `KEY 0, (255,252,250,248,246,244,240,238)` with braces is KEYIN 0xEEF0F4F6F8FAFCFF (R66). -/
theorem test_assemble_key_list :
    assembleLine (['K', 'E', 'Y', ' ', '0', ',', ' ', Char.ofNat 123, '2', '5', '5', ',', '2', '5', '2', ',', '2', '5',
      '0', ',', '2', '4', '8', ',', '2', '4', '6', ',', '2', '4', '4', ',', '2', '4', '0', ',', '2', '3', '8',
      Char.ofNat 125]) = .command (.key 0 keyA) := by decide
theorem test_assemble_refuses : assembleLine ['V', 'A', 'L', ' ', '2', '5', '6'] = .refused := by decide
theorem test_assemble_wheel_letter :
    assembleLine ['r', 'd', 'p', 'o', 's', ' ', '0', 'x', '3', ',', 'h', ' ', ';', 'x'] = .command (.rdpos 3 .h) := by decide
/-- R73: `CHAIN 2, (#0xff, (0,0,0,0,0,0,0,1))` with braces, and `skip 2`. -/
theorem test_assemble_chain :
    commandsOfLine (['C', 'H', 'A', 'I', 'N', ' ', '2', ',', Char.ofNat 123, '#', '0', 'x', 'f', 'f', ',',
      Char.ofNat 123, '0', ',', '0', ',', '0', ',', '0', ',', '0', ',', '0', ',', '0', ',', '1', Char.ofNat 125,
      Char.ofNat 125]) = some [.cfg 2, .key 0 0xFF, .key 1 0x0100000000000000] := by decide
theorem test_assemble_process :
    assemble [['s', 'k', 'i', 'p', ' ', '2'], ['P', 'R', 'O', 'C', 'E', 'S', 'S', Char.ofNat 123, '7', ',', '9',
      Char.ofNat 125], []] = some [.cadv, .cadv, .xor 7, .xor 9] := by decide
theorem test_disassemble_word :
    disassemble 0x9000010A#32 0 = ['.', 'w', 'o', 'r', 'd', ' ', '0', 'x', '9', '0', '0', '0', '0', '1', '0', 'A'] := by decide

/-! ### Witnesses: states and operands that meet the statements' hypotheses, clause by clause at a boundary value -/

theorem two_chain : ChainAt (two posA posB) [posA, posB] := by decide
theorem three_chain : ChainAt three [posA, ⟨255, 0, 0, 0, 0, 0, 0, 0⟩, posA] := by decide
theorem two_inv : (two posA posB).Inv := by decide

theorem witness_NopAnswersOk :
    decode 0x00000000#32 0 = .ok .nop ∧ decode 0x00000001#32 0 = .error .nonzeroUnusedField := by decide

theorem witness_DecodeOfEncodeIsTheCommand :
    (Instr.key 255 keyA).wf = true ∧ (Instr.rdpos 255 .h).wf = true ∧
    ∀ k key, Instr.rdpos 255 .h ≠ .key k key := by simp [Instr.wf, stageFits]
theorem witness_EncodeOfDecodeIsTheWord :
    decode 0x2000FF00#32 keyA = .ok (.key 255 keyA) ∧ (Instr.key 255 keyA).mnemonic = .key := by decide
theorem witness_ReservedWordsAnswerIllegal_opcode :
    (presenting 0x90000000#32 0 State.reset).pending = [.command 0x90000000#32 0] ∧
    0x9#4 ≤ (0x90000000#32).extractLsb' 28 4 := by decide
theorem witness_ReservedWordsAnswerIllegal_rsv :
    (presenting 0x00080000#32 0 State.reset).pending = [.command 0x00080000#32 0] ∧
    (0x00080000#32).extractLsb' 19 9 ≠ 0#9 := by decide
theorem witness_WordMatchingNoRowAnswersIllegal :
    ∀ mp ∈ [(0xFFFFFFFF#32, 0x00000000#32), (0xFFFFFF00#32, 0x10000000#32), (0xFFFF00FF#32, 0x20000000#32),
      (0xFFFF00FF#32, 0x30000000#32), (0xFFFF00FF#32, 0x40000000#32), (0xFFF800FF#32, 0x50000000#32),
      (0xFFFFFFFF#32, 0x60000000#32), (0xFFFFFFFF#32, 0x70000000#32), (0xFFFFFF00#32, 0x80000000#32)],
      0x00000001#32 &&& mp.1 ≠ mp.2 := by simp
theorem witness_WordMatchingNoRowAnswersIllegal_response :
    ∃ t r, step (presenting 0x00000001#32 0 State.reset) = .next t ∧ t.response = some r ∧ r.status = .illegal :=
  ⟨_, _, rfl, rfl, rfl⟩
theorem witness_StepRunsThePresentedCommand :
    (presenting 0x50070300#32 0 three).pending = [.command 0x50070300#32 0] ∧
    decode 0x50070300#32 0 = .ok (.rdpos 3 .h) := by decide
theorem witness_StepWaitsWhenNothingIsPresented : State.reset.pending = [] := by decide
theorem witness_ResetInputPutsTheBlockAtItsResetValues :
    ({ three with pending := [.reset, .command 0x60000000#32 0] } : State).pending =
      .reset :: [.command 0x60000000#32 0] ∧
    decode 0x60000000#32 0 = .ok .cval := by decide
theorem witness_EveryStepKeepsTheInvariant :
    (presenting 0x70000000#32 0 (two posA posB)).Inv ∧
    ∃ t, step (presenting 0x70000000#32 0 (two posA posB)) = .next t :=
  ⟨by decide, _, rfl⟩
theorem witness_EveryStepAnswersInInvariantStates :
    (presenting 0x80000011#32 0 (two posA posB)).Inv ∧
    (presenting 0x80000011#32 0 (two posA posB)).pending = [.command 0x80000011#32 0] := by decide
theorem witness_ErrorsArePreciseAndNotSticky :
    ∃ t u r, step { halfKeyed with pending := [.command 0x60000000#32 0, .command 0#32 0] } = .next t ∧
      t.response = some r ∧ r.status ≠ .ok ∧
      exec .nop { halfKeyed with pending := [.command 0#32 0], pc := halfKeyed.pc + 1 } = .next u ∧
      [HostInput.command 0#32 0] ≠ [] :=
  ⟨_, _, _, rfl, rfl, by decide, rfl, by decide⟩
theorem witness_KeyinIsReadOnlyByKey :
    0x60000000#32 &&& 0xFFFF00FF#32 ≠ 0x20000000#32 ∧ 0x20000001#32 &&& 0xFFFF00FF#32 ≠ 0x20000000#32 ∧
    0xFFFFFFFF#32 &&& 0xFFFF00FF#32 ≠ 0x20000000#32 := by decide
theorem witness_CommandsReportTheFirstFailingCheck :
    (presenting 0x30000400#32 0 State.reset).Inv ∧
    (presenting 0x30000400#32 0 State.reset).pending = [.command 0x30000400#32 0] ∧
    decode 0x30000400#32 0 = .ok (.val 4) ∧ decode 0x30000401#32 0 = .error .nonzeroUnusedField := by decide
theorem witness_InvalidConfigIsExactlyCfgOutsideOneToNmax :
    State.reset.nmax < (5#8).toNat ∧
    ∃ t r, exec (.cfg 5#8) State.reset = .next t ∧ t.response = some r ∧ r.status = .invalidConfig :=
  ⟨by decide, _, _, rfl, rfl, rfl⟩
theorem witness_BadStageIsExactlyAStageIndexFromNmaxOn :
    State.reset.nmax ≤ 4 ∧
    ∃ t r, exec (.key 4 keyB) State.reset = .next t ∧ t.response = some r ∧ r.status = .badStage :=
  ⟨by decide, _, _, rfl, rfl, rfl⟩
theorem witness_NotKeyedIsAnsweredOnUnkeyedStages :
    (3 < State.reset.nmax ∧ State.reset.keyed 3 = false) ∧
    (1 ≤ halfKeyed.n.toNat ∧ halfKeyed.n.toNat ≤ halfKeyed.nmax ∧ 1 < halfKeyed.n.toNat ∧ halfKeyed.keyed 1 = false) ∧
    ∃ t r, exec .cval halfKeyed = .next t ∧ t.response = some r ∧ r.status = .notKeyed :=
  ⟨by decide, by decide, _, _, rfl, rfl, rfl⟩
theorem witness_StatesOutsideTheInvariantStopByName_stage :
    outOfRange.stages[0]? = some (some ⟨0, 253, 0, 0, 0, 0, 0, 0⟩) ∧
    Positions.inRange ⟨0, 253, 0, 0, 0, 0, 0, 0⟩ = false := by decide
theorem witness_StatesOutsideTheInvariantStopByName_length :
    ({ State.reset with n := 0 } : State).n.toNat = 0 ∧
    ({ State.reset with n := 5 } : State).nmax < ({ State.reset with n := 5 } : State).n.toNat := by decide
theorem witness_StatesOutsideTheInvariantStopByName_chain :
    1 ≤ outOfRange.n.toNat ∧ [(⟨0, 253, 0, 0, 0, 0, 0, 0⟩ : Positions)].length = outOfRange.n.toNat ∧
    outOfRange.stages.take outOfRange.n.toNat = [(⟨0, 253, 0, 0, 0, 0, 0, 0⟩ : Positions)].map some ∧
    ∃ p ∈ [(⟨0, 253, 0, 0, 0, 0, 0, 0⟩ : Positions)], p.inRange = false := by decide
/-- The encoding clause of each command statement (`RowDecodes`): a word that matches the row, and a word with the row's
opcode that does not (R68, R141). -/
theorem witness_RowDecodes :
    ∀ x ∈ [(0x0#4, 0xFFFFFFFF#32, 0x00000000#32, 0x00000000#32, 0x00000001#32),
      (0x1#4, 0xFFFFFF00#32, 0x10000000#32, 0x100000FF#32, 0x10000105#32),
      (0x2#4, 0xFFFF00FF#32, 0x20000000#32, 0x2000FF00#32, 0x20010000#32),
      (0x3#4, 0xFFFF00FF#32, 0x30000000#32, 0x3000FF00#32, 0x30000001#32),
      (0x4#4, 0xFFFF00FF#32, 0x40000000#32, 0x4000FF00#32, 0x40010000#32),
      (0x5#4, 0xFFF800FF#32, 0x50000000#32, 0x5007FF00#32, 0x50070001#32),
      (0x6#4, 0xFFFFFFFF#32, 0x60000000#32, 0x60000000#32, 0x60000001#32),
      (0x7#4, 0xFFFFFFFF#32, 0x70000000#32, 0x70000000#32, 0x70000100#32),
      (0x8#4, 0xFFFFFF00#32, 0x80000000#32, 0x800000FF#32, 0x80000100#32)],
      x.2.2.2.1 &&& x.2.1 = x.2.2.1 ∧ x.2.2.2.2.extractLsb' 28 4 = x.1 ∧ x.2.2.2.2 &&& x.2.1 ≠ x.2.2.1 := by
  simp
theorem witness_CfgSetsTheChainLength :
    (1 ≤ (1#8).toNat ∧ (4#8).toNat ≤ State.reset.nmax) ∧ (0#8).toNat = 0 ∧ State.reset.nmax < (5#8).toNat := by decide
theorem witness_KeyWritesThePositionsOfItsStage : 3 < State.reset.nmax ∧ State.reset.nmax ≤ 4 := by decide
theorem witness_ValAnswersTheStageByte :
    ((one posA).stages[0]? = some (some posA) ∧ posA.inRange = true) ∧ (one posA).nmax ≤ 4 ∧
    (one posA).stages[3]? = some none := by decide
theorem witness_AdvStepsEveryWheelOfItsStage :
    ((two posA posB).stages[1]? = some (some posB) ∧ posB.inRange = true) ∧ (two posA posB).nmax ≤ 4 ∧
    (two posA posB).stages[2]? = some none := by decide
theorem witness_RdposAnswersThePosition :
    (two posA posB).stages[1]? = some (some posB) ∧ (two posA posB).nmax ≤ 4 ∧
    (two posA posB).stages[3]? = some none := by decide
theorem witness_CvalAnswersTheChainByte :
    ChainAt (two posA posB) [posA, posB] ∧
    (1 ≤ halfKeyed.n.toNat ∧ halfKeyed.n.toNat ≤ halfKeyed.nmax ∧ 1 < halfKeyed.n.toNat ∧
      halfKeyed.stages[1]? = some none) := by decide
theorem witness_CadvRipplesTheCarry :
    ChainAt three [posA, ⟨255, 0, 0, 0, 0, 0, 0, 0⟩, posA] ∧
    (1 ≤ halfKeyed.n.toNat ∧ halfKeyed.n.toNat ≤ halfKeyed.nmax ∧ 1 < halfKeyed.n.toNat ∧
      halfKeyed.stages[1]? = some none) := by decide
theorem witness_XorCombinesThenAdvances :
    ChainAt (one posB) [posB] ∧
    (1 ≤ halfKeyed.n.toNat ∧ halfKeyed.n.toNat ≤ halfKeyed.nmax ∧ 1 < halfKeyed.n.toNat ∧
      halfKeyed.stages[1]? = some none) := by decide
theorem witness_OneStageChainActsAsStageZero : (one posA).n = 0x01#8 ∧ 1 ≤ (one posA).nmax := by decide
theorem witness_ReadingCommandsChangeOnlyTheResponse :
    (∃ t, exec .nop (two posA posB) = .next t) ∧ (∃ t, exec .cval (two posA posB) = .next t) ∧
    (∃ t, exec (.val 1) (two posA posB) = .next t) ∧ ∃ t, exec (.rdpos 1 .h) (two posA posB) = .next t :=
  ⟨⟨_, rfl⟩, ⟨_, rfl⟩, ⟨_, rfl⟩, ⟨_, rfl⟩⟩
theorem witness_StageAndConfigCommandsLeaveTheRestAlone :
    (∃ t, exec (.key 3 keyA) (two posA posB) = .next t) ∧ (∃ t, exec (.adv 1) (two posA posB) = .next t) ∧
    ∃ t, exec (.cfg 4) (two posA posB) = .next t :=
  ⟨⟨_, rfl⟩, ⟨_, rfl⟩, ⟨_, rfl⟩⟩
theorem witness_ChainCommandsLeaveInactiveStagesAlone :
    (∃ t, exec .cadv (two posA posB) = .next t) ∧ (∃ t, exec (.xor 7) (two posA posB) = .next t) ∧
    (two posA posB).n.toNat ≤ 2 :=
  ⟨⟨_, rfl⟩, ⟨_, rfl⟩, by decide⟩
theorem witness_NoStepWritesTheWheelTables :
    ∃ t, step (presenting 0x80000011#32 0 (two posA posB)) = .next t := ⟨_, rfl⟩
theorem witness_KeyedIsSetByKeyAndClearedOnlyByReset :
    (∃ t, exec (.key 3 keyA) (two posA posB) = .next t) ∧
    ({ three with pending := [.reset] } : State).pending = [.reset] ∧
    ∃ t, step { three with pending := [.reset] } = .next t :=
  ⟨⟨_, rfl⟩, rfl, _, rfl⟩
theorem witness_ChainLengthIsWrittenOnlyByCfg :
    (∃ t, exec (.cfg 4) (two posA posB) = .next t ∧ t.n ≠ (two posA posB).n) ∧
    ({ three with pending := [.reset] } : State).pending = [.reset] ∧
    ∃ t, step { three with pending := [.reset] } = .next t :=
  ⟨⟨_, rfl, by decide⟩, rfl, _, rfl⟩
theorem witness_InactiveStagesDoNotAffectTheChain :
    (one posA).stages.take (one posA).n.toNat =
      ({ one posA with stages := [some posA, some posB, none, none] } : State).stages.take (one posA).n.toNat ∧
    ({ one posA with stages := [some posA, some posB, none, none] } : State).nmax = (one posA).nmax ∧
    ∃ t, exec (.xor 7) (one posA) = .next t :=
  ⟨by decide, by decide, _, rfl⟩
theorem witness_TableEntriesAreSeparateBytes :
    (two posA posB).memory.wf ∧ (two posA posB).Inv ∧ 3 < (two posA posB).nmax ∧ 238 < Wheel.h.modulus ∧
    (255#8).toNat < Wheel.a.modulus ∧ (238#8).toNat < Wheel.h.modulus := by decide
theorem witness_ConnectedTablesReadBack :
    State.reset.memory.wf ∧ State.reset.Inv ∧ 3 < State.reset.nmax ∧ (238#8).toNat < Wheel.h.modulus ∧
    ¬ (3 = 0 ∧ Wheel.h = Wheel.a) := by decide
theorem witness_RepeatedAdvanceHasPeriodP :
    3 ≤ 255 ∧ ({ State.reset with stages := [none, none, none, some posA] } : State).stages[3]? = some (some posA) ∧
    posA.inRange = true := by decide
theorem witness_FirstStageMovesAsIfAlone :
    ChainAt (two posA posB) [posA, posB] ∧
    [Instr.xor 0x11, .cval, .cadv, .xor 0x22].all (fun i => isChainCommand i && !isCfg i) = true := by decide
theorem witness_FirstStageMovesAsIfAlone_cfg :
    halfKeyed.Inv ∧ halfKeyed.keyed 0 = true ∧
    [Instr.cadv, .cfg 1, .cadv, .cval, .cfg 0, .xor 0x22].all isChainCommand = true := by decide
theorem witness_FirstStageMovesAsIfAlone_keyed :
    allKeyed.Inv ∧ allKeyed.keyed 0 = true ∧ ∀ k < allKeyed.nmax, allKeyed.keyed k = true := by decide
/-- With stage 1 not keyed, a CADV is refused while N = 2 and advances while N = 1 (R112, R146), so that one of these
three CADVs is a CASCADE_ADVANCE. -/
theorem test_advances_counted :
    ((transcript 5 (halfKeyed.queue [.cadv, .cfg 1, .cadv, .cfg 2, .cadv])).map fun q =>
      advancesIn [.cadv, .cfg 1, .cadv, .cfg 2, .cadv] q.1) = some 1 := by decide
theorem witness_ChainAdvanceCountsAreTheCarryFormula :
    ChainAt three [posA, ⟨255, 0, 0, 0, 0, 0, 0, 0⟩, posA] := three_chain
theorem witness_ChainPeriodIsExact : ChainAt (one posA) [posA] ∧ ChainAt (two posA posB) [posA, posB] := by decide
theorem witness_ProcessXorsTheKeystream : ChainAt (two posA posB) [posA, posB] := two_chain
theorem witness_StreamIsAnInvolution :
    ChainAt (two posA posB) [posA, posB] ∧
    ChainAt { two posA posB with stages := [some posA, some posB, some posA, none] } [posA, posB] := by decide
theorem witness_ZeroTablesGiveTheIdentity :
    ChainAt three [posA, ⟨255, 0, 0, 0, 0, 0, 0, 0⟩, posA] ∧
    ∀ k w (i : Byte), k < three.n.toNat → i.toNat < Wheel.modulus w → tableRead three.memory k w i = 0x00#8 :=
  ⟨three_chain, fun _ _ _ _ _ => rfl⟩
theorem witness_ChainSetupKeysTheWholeChain :
    1 ≤ (4#8).toNat ∧ (4#8).toNat ≤ State.reset.nmax ∧
    chainCommands 4#8 [keyA, keyB, keyA, keyB] =
      some [.cfg 4#8, .key 0 keyA, .key 1 keyB, .key 2 keyA, .key 3 keyB] := by decide
theorem witness_AssemblerReadsTheDisassembly :
    (Instr.key 255 keyA).wf = true ∧ decode 0x2000FF00#32 keyA = .ok (.key 255 keyA) ∧
    decode 0x90000000#32 0 = .error .reservedOpcode := by decide
theorem witness_AssemblerAcceptsOnlyWellFormedCommands :
    assembleLine ['V', 'A', 'L', ' ', '2', '5', '5'] = .command (.val 255) ∧
    commandsOfLine ['S', 'K', 'I', 'P', ' ', '1'] = some [.cadv] := by decide

/-! The operands of R72 at the last value that fits and the first that does not. -/

theorem witness_Spells :
    Spells "255".toList 255 ∧ Spells "256".toList 256 ∧ Spells "7".toList 7 ∧ Spells "8".toList 8 :=
  ⟨.inl (by decide), .inl (by decide), .inl (by decide), .inl (by decide)⟩
theorem witness_Spells_hex :
    Spells "0xFf".toList 255 ∧ Spells "0x100".toList 256 ∧ Spells "0xFFFFFFFFFFFFFFFF".toList (2 ^ 64 - 1) ∧
    Spells "18446744073709551616".toList (2 ^ 64) :=
  ⟨.inr ⟨"Ff".toList, by decide⟩, .inr ⟨"100".toList, by decide⟩,
    .inr ⟨"FFFFFFFFFFFFFFFF".toList, by decide +kernel⟩, .inl (by decide +kernel)⟩
theorem witness_Names :
    Names "cFg".toList ['C', 'F', 'G'] ∧ Names "val".toList ['V', 'A', 'L'] ∧ Names "ADV".toList ['A', 'D', 'V'] ∧
    Names "xor".toList ['X', 'O', 'R'] ∧ Names "Rdpos".toList ['R', 'D', 'P', 'O', 'S'] ∧
    Names "KEY".toList ['K', 'E', 'Y'] := by decide
theorem test_operand_cfg :
    assembleLine "cFg #255".toList = .command (.cfg 255) ∧ assembleLine "CFG #256".toList = .refused := by decide
theorem test_operand_val :
    assembleLine "val 0xFf".toList = .command (.val 255) ∧ assembleLine "VAL 0x100".toList = .refused := by decide
theorem test_operand_adv :
    assembleLine "ADV 255".toList = .command (.adv 255) ∧ assembleLine "ADV 256".toList = .refused := by decide
theorem test_operand_xor :
    assembleLine "XOR #255".toList = .command (.xor 255) ∧ assembleLine "XOR #256".toList = .refused := by decide
theorem test_operand_rdpos :
    assembleLine "RDPOS 255, 7".toList = .command (.rdpos 255 .h) ∧ assembleLine "RDPOS 255, 8".toList = .refused ∧
    assembleLine "RDPOS 256, 7".toList = .refused := by decide
theorem test_operand_key :
    assembleLine "KEY 255, #0xFFFFFFFFFFFFFFFF".toList = .command (.key 255 (BitVec.allOnes 64)) ∧
    assembleLine "KEY 255, #0x10000000000000000".toList = .refused ∧
    assembleLine "KEY 256, #0".toList = .refused := by decide +kernel
/-- Lists of 7, 8 and 9 key bytes, and a byte of 256 in a list of 8. -/
theorem test_operand_key_list :
    assembleLine ("KEY 0, ".toList ++ braced (List.replicate 7 ['1'])) = .refused ∧
    assembleLine ("KEY 0, ".toList ++ braced (List.replicate 8 "255".toList)) =
      .command (.key 0 (BitVec.allOnes 64)) ∧
    assembleLine ("KEY 0, ".toList ++ braced (List.replicate 9 ['1'])) = .refused ∧
    assembleLine ("KEY 0, ".toList ++ braced ("256".toList :: List.replicate 7 ['1'])) = .refused := by decide +kernel

theorem witness_PseudoInstructionsExpandToTheirCommands :
    assembleLine "VAL 255".toList = .command (.val 255) ∧ Names "process".toList ['P', 'R', 'O', 'C', 'E', 'S', 'S'] ∧
    Names "Encrypt".toList ['E', 'N', 'C', 'R', 'Y', 'P', 'T'] ∧
    Names "DECRYPT".toList ['D', 'E', 'C', 'R', 'Y', 'P', 'T'] ∧
    Names "chain".toList ['C', 'H', 'A', 'I', 'N'] ∧ Names "SKIP".toList ['S', 'K', 'I', 'P'] := by decide
theorem test_pseudo_process :
    commandsOfLine ("PROCESS ".toList ++ braced ["255".toList]) = some [.xor 255] ∧
    commandsOfLine ("PROCESS ".toList ++ braced ["256".toList]) = none ∧
    commandsOfLine ("decrypt ".toList ++ braced []) = some [] := by decide
theorem test_pseudo_chain :
    commandsOfLine ("CHAIN 1, ".toList ++ braced ["#0xFFFFFFFFFFFFFFFF".toList]) =
      some [.cfg 1, .key 0 (BitVec.allOnes 64)] ∧
    commandsOfLine ("CHAIN 1, ".toList ++ braced ["#0x10000000000000000".toList]) = none ∧
    commandsOfLine ("CHAIN 2, ".toList ++ braced ["#1".toList]) = none := by decide +kernel

end Sys2Proof.Tests
end

section
/-! PROOFS. The scope of the model (spec/00_scope.md): the wheels' constants, the invariant at reset, and the wheel
tables the host connects, read back through TableRead. -/

namespace Sys2Proof.Machine

/-- An index of a wheel table fits the byte that TableRead takes (R42). -/
theorem toNat_ofNat_tableIndex {w : Wheel} (i : Fin w.modulus) : (BitVec.ofNat 8 i).toNat = i := by
  rw [BitVec.toNat_ofNat]
  exact Nat.mod_eq_of_lt (i.isLt.trans_le w.modulus_le)

/-! ### TableRead after a write of the host (R42, R173) -/

/-- TableRead after the host wrote one entry: the byte written at that entry, the old byte at every other. -/
theorem tableRead_write {m : Memory} (hm : m.wf) {k k' : Nat} {w w' : Wheel} {i : Nat} {i' : Byte} (v : Byte)
    (hi : i < w.modulus) (hi' : i'.toNat < w'.modulus) :
    tableRead (m.write (tableAddress k w i) v) k' w' i' =
      if k' = k ∧ w' = w ∧ i'.toNat = i then v else tableRead m k' w' i' := by
  split
  · next h =>
    obtain ⟨rfl, rfl, rfl⟩ := h
    exact Memory.read_write_same hm _ v
  · next h => exact Memory.read_write_other _ _ v fun he => h (tableAddress_injective hi' hi he)

/-- An entry of the table just connected reads as the table gives it. -/
theorem tableRead_connectTable_same {s : State} (hm : s.memory.wf) (k : Fin s.nmax) {w : Wheel}
    (table : WheelTable w) (i : Fin w.modulus) :
    tableRead (s.connectTable k w table).memory k w (BitVec.ofNat 8 i) = table[i] := by
  rw [tableRead, toNat_ofNat_tableIndex, State.connectTable_memory]
  refine Memory.read_writeAll_of_mem hm (mem_tableCells.mpr ⟨i, rfl⟩) fun c hc haddr => ?_
  obtain ⟨j, rfl⟩ := mem_tableCells.mp hc
  obtain ⟨-, -, hji⟩ := tableAddress_injective j.isLt i.isLt haddr
  obtain rfl := Fin.ext hji
  rfl

/-- An entry of any other table reads as before. -/
theorem tableRead_connectTable_other {s : State} {k : Fin s.nmax} {w : Wheel} (table : WheelTable w) {k' : Nat}
    {w' : Wheel} {i' : Byte} (hi' : i'.toNat < w'.modulus) (hne : ¬ (k' = k.val ∧ w' = w)) :
    tableRead (s.connectTable k w table).memory k' w' i' = tableRead s.memory k' w' i' := by
  refine Memory.read_writeAll_other fun c hc haddr => hne ?_
  obtain ⟨j, rfl⟩ := mem_tableCells.mp hc
  obtain ⟨hk, hw, -⟩ := tableAddress_injective j.isLt hi' haddr
  exact ⟨hk.symm, hw.symm⟩

/-- After the whole binding is connected, every entry reads as the binding gives it. -/
theorem tableRead_connectTables {s : State} (hm : s.memory.wf) (ts : Fin s.nmax → TableSet) (k : Fin s.nmax)
    (w : Wheel) (i : Fin w.modulus) :
    tableRead (s.connectTables ts).memory k w (BitVec.ofNat 8 i) = (ts k w)[i] := by
  rw [tableRead, toNat_ofNat_tableIndex, State.connectTables_memory]
  refine Memory.read_writeAll_of_mem hm (mem_connectedCells.mpr ⟨k, w, i, rfl⟩) fun c hc haddr => ?_
  obtain ⟨k', w', i', rfl⟩ := mem_connectedCells.mp hc
  obtain ⟨hk, rfl, hi⟩ := tableAddress_injective i'.isLt i.isLt haddr
  obtain rfl := Fin.ext hk
  obtain rfl := Fin.ext hi
  rfl

end Sys2Proof.Machine

namespace Sys2Proof.Proofs

open Sys2Proof.Machine

/-- Settles O39: the address map is injective, so a write of one entry is a write of no other. -/
theorem tableEntriesAreSeparateBytes : Obligations.TableEntriesAreSeparateBytes := by
  intro s k w i v hm
  exact ⟨fun _ _ _ hi' => tableRead_write hm v i.isLt hi', Memory.write_wf hm _ v, rfl,
    fun h => State.connectByte_inv h k w i v⟩

/-- Settles O51: the cells written for a table, or for the whole binding, give each entry's address one byte, and an
entry of another table none. -/
theorem connectedTablesReadBack : Obligations.ConnectedTablesReadBack := by
  constructor
  · intro s k w table hm
    exact ⟨tableRead_connectTable_same hm k table, fun _ _ _ => tableRead_connectTable_other table, rfl,
      fun h => State.connectTable_inv h k w table⟩
  · intro s ts hm
    exact ⟨tableRead_connectTables hm ts, rfl, fun h => State.connectTables_inv h ts⟩

/-- Settles O10: NMAX and N are legal numbers, no stage holds a position, and nothing is listed in memory. -/
theorem invariantHoldsAtReset : Obligations.InvariantHoldsAtReset := by
  have hstages : ∀ st ∈ State.reset.stages, ∀ p ∈ st, Positions.inRange p = true := by
    intro st hst p hp
    rw [List.eq_of_mem_replicate hst] at hp
    cases hp
  exact ⟨by decide, by decide, hstages, Memory.wf_nil, List.forall_mem_nil _⟩

/-- Settles O40: closed facts about the eight moduli. -/
theorem wheelConstantsAreThoseOfTheSpec : Obligations.WheelConstantsAreThoseOfTheSpec := by
  have hcoprime : Claims.moduli.Pairwise Nat.Coprime := by decide
  have hlcm : Claims.moduli.foldl Nat.lcm 1 = Claims.period := by decide
  exact ⟨rfl, rfl, rfl, by decide, rfl, by decide, rfl, hcoprime, hlcm⟩

end Sys2Proof.Proofs
end

section
/-! PROOFS. The state of the block (spec/10_state.md): the invariant of every step, what writes KEYED and N, and what
the inactive stages and an earlier response have no effect on. -/

namespace Sys2Proof.Machine

/-! ### KEYED under the writes of the commands (R22) -/

@[simp] theorem State.setPos_keyed (s : State) (k j : Nat) (p : Positions) :
    (s.setPos k p).keyed j = true ↔ s.keyed j = true ∨ j < s.nmax ∧ k = j := by
  simp only [State.keyed, State.pos, State.nmax, State.setPos_stages, List.getElem?_set]
  by_cases hkj : k = j
  · subst hkj
    by_cases hk : k < s.stages.length <;> simp [hk]
  · simp [hkj]

@[simp] theorem State.setChain_keyed (s : State) (ps : List Positions) (j : Nat) :
    (s.setChain ps).keyed j = true ↔ s.keyed j = true ∨ j < ps.length := by
  simp only [State.keyed, State.pos, State.setChain_stages]
  rcases Nat.lt_or_ge j ps.length with hj | hj
  · rw [List.getElem?_append_left (by simpa using hj)]
    simp [hj]
  · rw [List.getElem?_append_right (by simpa using hj)]
    simp [hj, Nat.not_lt.mpr hj]

/-- The stages of a chain that has positions are keyed. -/
theorem State.keyed_of_chain {s : State} {ps : List Positions} (h : s.chain = some ps) {j : Nat}
    (hj : j < ps.length) : s.keyed j = true := by
  have hget : (s.stages.take s.n.toNat)[j]? = some (some ps[j]) := by
    simp [State.chain_eq_some.mp h, hj]
  rw [List.getElem?_take] at hget
  split at hget
  · exact State.keyed_iff.mpr ⟨ps[j], State.pos_eq_some.mpr hget⟩
  · cases hget

/-- An advance of the chain keys no stage: the stages it writes are keyed already. -/
theorem State.setChain_cascadeAdvance_keyed {s : State} {ps : List Positions} (h : s.chain = some ps) (j : Nat) :
    (s.setChain (cascadeAdvance ps).1).keyed j = true ↔ s.keyed j = true := by
  rw [State.setChain_keyed, cascadeAdvance_length, or_iff_left_of_imp (State.keyed_of_chain h)]

theorem Writes.keyed_iff {i : Instr} {s u : State} (h : Writes i s u) (k : Nat) :
    u.keyed k = true ↔ s.keyed k = true ∨ k < s.nmax ∧ ∃ keyin, i = .key k keyin := by
  cases i with
  | nop => obtain rfl := h; simp
  | cfg n => obtain ⟨-, -, rfl⟩ := h; simp
  | key j keyin => obtain ⟨-, rfl⟩ := h; simp
  | val j => obtain ⟨-, rfl⟩ := h; simp
  | adv j =>
    obtain ⟨p, hp, -, rfl⟩ := h
    have hj : s.keyed j = true := State.keyed_iff.mpr ⟨p, hp⟩
    simp only [State.setPos_keyed, reduceCtorEq, exists_false, and_false, or_false]
    exact or_iff_left_of_imp fun ⟨_, hjk⟩ => hjk ▸ hj
  | rdpos j w => obtain ⟨-, rfl⟩ := h; simp
  | cval => obtain ⟨-, rfl⟩ := h; simp
  | cadv => obtain ⟨ps, -, hp, -, rfl⟩ := h; simpa using State.setChain_cascadeAdvance_keyed hp k
  | xor d => obtain ⟨ps, -, hp, -, rfl⟩ := h; simpa using State.setChain_cascadeAdvance_keyed hp k

theorem Refuses.nmax_le_of_key {k : Nat} {keyin : KeyOperand} {s : State} {code : Status}
    (h : Refuses (.key k keyin) s code) : s.nmax ≤ k :=
  h.2

/-! ### N under the writes of the commands (R23) -/

theorem Writes.n_eq_or_cfg {i : Instr} {s u : State} (h : Writes i s u) :
    u.n = s.n ∨ i = .cfg u.n ∧ 1 ≤ u.n.toNat ∧ u.n.toNat ≤ s.nmax := by
  cases i with
  | nop => obtain rfl := h; exact .inl rfl
  | cfg n => obtain ⟨h1, hn, rfl⟩ := h; exact .inr ⟨rfl, h1, hn⟩
  | key j keyin => obtain ⟨-, rfl⟩ := h; exact .inl rfl
  | val j => obtain ⟨-, rfl⟩ := h; exact .inl rfl
  | adv j => obtain ⟨p, -, -, rfl⟩ := h; exact .inl rfl
  | rdpos j w => obtain ⟨-, rfl⟩ := h; exact .inl rfl
  | cval => obtain ⟨-, rfl⟩ := h; exact .inl rfl
  | cadv => obtain ⟨ps, -, -, -, rfl⟩ := h; exact .inl rfl
  | xor d => obtain ⟨ps, -, -, -, rfl⟩ := h; exact .inl rfl

/-! ### The step on each host input (R130, R170) -/

theorem step_of_decode {s : State} {cw : CommandWord} {keyin : KeyOperand} {rest : List HostInput} {i : Instr}
    (hp : s.pending = .command cw keyin :: rest) (hd : decode cw keyin = .ok i) :
    step s = exec i (s.presentCommand rest) := by
  simp only [step, hp, hd]

theorem step_of_reset {s : State} {rest : List HostInput} (hp : s.pending = .reset :: rest) :
    step s = .next (s.present rest).resetBlock := by
  simp only [step, hp]

@[simp] theorem State.resetBlock_keyed (s : State) (k : Nat) : s.resetBlock.keyed k = false := by
  simp only [State.keyed, State.pos, State.resetBlock_stages, List.getElem?_replicate]
  split <;> rfl

/-! ### The invariant under the writes of the commands (R21, R23, R7) -/

/-- New stages, as many as before and with every position in range, keep the invariant. -/
theorem State.inv_of_stages {s : State} (h : s.Inv) {l : List (Option Positions)} (hl : l.length = s.nmax)
    (hr : ∀ st ∈ l, ∀ p ∈ st, Positions.inRange p = true) : State.Inv { s with stages := l } := by
  obtain ⟨hmax, hn, -, hwf, hspace⟩ := h
  have hnmax : State.nmax { s with stages := l } = s.nmax := hl
  refine ⟨hnmax.symm ▸ hmax, hnmax.symm ▸ hn, hr, hwf, fun c hc => ?_⟩
  rw [State.tableSpace, hnmax]
  exact hspace c hc

theorem State.setN_inv {s : State} (h : s.Inv) {n : Byte} (h1 : 1 ≤ n.toNat) (hn : n.toNat ≤ s.nmax) :
    (s.setN n).Inv := by
  obtain ⟨hmax, -, hrest⟩ := h
  exact ⟨hmax, ⟨h1, hn⟩, hrest⟩

theorem State.setPos_inv {s : State} (h : s.Inv) (k : Nat) {p : Positions} (hp : p.inRange = true) :
    (s.setPos k p).Inv := by
  have ⟨_, _, hstages, _⟩ := h
  refine State.inv_of_stages h List.length_set fun st hst => ?_
  rcases List.mem_or_eq_of_mem_set hst with hst | rfl
  · exact hstages st hst
  · simpa using hp

theorem State.setChain_inv {s : State} (h : s.Inv) {ps : List Positions} (hl : ps.length ≤ s.nmax)
    (hp : ∀ p ∈ ps, Positions.inRange p = true) : (s.setChain ps).Inv := by
  have ⟨_, _, hstages, _⟩ := h
  refine State.inv_of_stages h ?_ fun st hst => ?_
  · simpa [State.nmax] using Nat.add_sub_of_le hl
  · rcases List.mem_append.mp hst with hst | hst
    · obtain ⟨p, hmem, rfl⟩ := List.mem_map.mp hst
      simpa using hp p hmem
    · exact hstages st (List.mem_of_mem_drop hst)

/-- An advance of the chain keeps the invariant: it writes as many stages as it read, each in range. -/
theorem State.setChain_cascadeAdvance_inv {s : State} (h : s.Inv) {ps : List Positions} (hl : s.chainLegal = true)
    (hc : s.chain = some ps) (hp : ∀ p ∈ ps, Positions.inRange p = true) :
    (s.setChain (cascadeAdvance ps).1).Inv := by
  refine State.setChain_inv h ?_ (cascadeAdvance_inRange hp)
  rw [cascadeAdvance_length, State.chain_length hl hc]
  exact (State.chainLegal_iff.mp hl).2

/-- The reset input puts the block into a state that meets the invariant (R170). -/
theorem State.resetBlock_inv {s : State} (h : s.Inv) : s.resetBlock.Inv := by
  have hstages : State.Inv { s with stages := List.replicate s.nmax none } := by
    refine State.inv_of_stages h List.length_replicate fun st hst p hp => ?_
    rw [List.eq_of_mem_replicate hst] at hp
    cases hp
  have ⟨⟨hmax, _⟩, _⟩ := h
  have hn : 1 ≤ (0x01#8).toNat := by decide
  exact State.setN_inv hstages hn (by simpa [State.nmax] using hmax)

theorem Writes.inv {i : Instr} {s u : State} (hw : Writes i s u) (h : s.Inv) : u.Inv := by
  cases i with
  | nop => obtain rfl := hw; exact h
  | cfg n => obtain ⟨h1, hn, rfl⟩ := hw; exact State.setN_inv h h1 hn
  | key k keyin => obtain ⟨-, rfl⟩ := hw; exact State.setPos_inv h k (keySchedule_inRange keyin)
  | val k => obtain ⟨-, rfl⟩ := hw; exact h
  | adv k => obtain ⟨p, -, -, rfl⟩ := hw; exact State.setPos_inv h k p.advanced_inRange
  | rdpos k w => obtain ⟨-, rfl⟩ := hw; exact h
  | cval => obtain ⟨-, rfl⟩ := hw; exact h
  | cadv => obtain ⟨ps, hl, hc, hp, rfl⟩ := hw; exact State.setChain_cascadeAdvance_inv h hl hc hp
  | xor d => obtain ⟨ps, hl, hc, hp, rfl⟩ := hw; exact State.setChain_cascadeAdvance_inv h hl hc hp

/-- The invariant does not speak of the response. -/
theorem State.respond_inv {s : State} (h : s.Inv) (st : Status) (data : Byte) (flag : Bool) :
    (s.respond st data flag).Inv :=
  h

theorem exec_inv {i : Instr} {s t : State} (h : s.Inv) (he : exec i s = .next t) : t.Inv := by
  rcases exec_next he with ⟨data, flag, u, hw, rfl⟩ | ⟨code, -, rfl⟩
  · exact State.respond_inv (hw.inv h) _ _ _
  · exact State.respond_inv h _ _ _

/-! ### What the commands of the chain read (R24) -/

/-- Two states that agree on N, the number of stages, the tables and the active stages. -/
structure SameChain (s s' : State) : Prop where
  n : s'.n = s.n
  nmax : s'.nmax = s.nmax
  memory : s'.memory = s.memory
  active : s'.stages.take s.n.toNat = s.stages.take s.n.toNat

/-- The outcome `r'`, of a command run from `s'`, has the response and the first `n` stages of `r`, and the other
stages of `s'`, when `r` is a next state. -/
def SameAnswer (n : Nat) (s' : State) (r r' : Result) : Prop :=
  ∀ t, r = .next t → ∃ t', r' = .next t' ∧ t'.response = t.response ∧
    t'.stages.take n = t.stages.take n ∧ t'.stages.drop n = s'.stages.drop n

theorem SameAnswer.of_respond {n : Nat} {s' u u' : State} (htake : u'.stages.take n = u.stages.take n)
    (hdrop : u'.stages.drop n = s'.stages.drop n) (st : Status) (data : Byte) (flag : Bool) :
    SameAnswer n s' (.next (u.respond st data flag)) (.next (u'.respond st data flag)) := by
  intro t ht
  obtain rfl := next_inj ht
  exact ⟨_, rfl, rfl, htake, hdrop⟩

theorem SameAnswer.onIndexDomain {n : Nat} {s' : State} {r r' : Result} (h : SameAnswer n s' r r')
    (ps : List Positions) (reason : Fault) :
    SameAnswer n s' (onIndexDomain ps reason r) (onIndexDomain ps reason r') := by
  intro t ht
  obtain ⟨hr, ht⟩ := onIndexDomain_next ht
  rw [onIndexDomain_of_inRange hr]
  exact h t ht

/-- The checks of the chain pass on `s'` when they pass on `s`, and hand the same positions to the command. -/
theorem SameChain.onKeyedChain {s s' : State} (h : SameChain s s') {body body' : List Positions → Result}
    (hbody : ∀ ps, ps.length = s.n.toNat → SameAnswer s.n.toNat s' (body ps) (body' ps)) :
    SameAnswer s.n.toNat s' (onKeyedChain s body) (onKeyedChain s' body') := by
  have hlegal : s'.chainLegal = s.chainLegal := by simp [State.chainLegal, h.n, h.nmax]
  have hchain : s'.chain = s.chain := by simp [State.chain, h.n, h.active]
  rcases onKeyedChain_cases s body with ⟨_, he⟩ | ⟨hl, hn, he⟩ | ⟨ps, hl, hp, he⟩
  · rw [he]
    exact fun _ ht => nomatch ht
  · have he' : Machine.onKeyedChain s' body' = raiseError .notKeyed s' := by
      simp [Machine.onKeyedChain, hlegal, hl, hchain, hn]
    rw [he, he']
    exact .of_respond h.active rfl _ _ _
  · have he' : Machine.onKeyedChain s' body' = body' ps := by
      simp [Machine.onKeyedChain, hlegal, hl, hchain, hp]
    rw [he, he']
    exact hbody ps (State.chain_length hl hp)

/-- A chain written to both states leaves each its own inactive stages. -/
theorem SameAnswer.of_setChain {s s' : State} {ps : List Positions} {n : Nat} (hl : ps.length = n) (data : Byte)
    (flag : Bool) :
    SameAnswer n s' (completes (s.setChain ps) data flag) (completes (s'.setChain ps) data flag) := by
  subst hl
  exact .of_respond (by simp) (by simp) _ _ _

theorem SameChain.execCval {s s' : State} (h : SameChain s s') :
    SameAnswer s.n.toNat s' (execCval s) (execCval s') := by
  refine h.onKeyedChain fun ps _ => .onIndexDomain ?_ ps _
  rw [h.memory]
  exact .of_respond h.active rfl _ _ _

theorem SameChain.execCadv {s s' : State} (h : SameChain s s') :
    SameAnswer s.n.toNat s' (execCadv s) (execCadv s') :=
  h.onKeyedChain fun ps hl => .onIndexDomain (.of_setChain ((cascadeAdvance_length ps).trans hl) _ _) ps _

theorem SameChain.execXor {s s' : State} (h : SameChain s s') (d : Byte) :
    SameAnswer s.n.toNat s' (execXor d s) (execXor d s') := by
  refine h.onKeyedChain fun ps hl => .onIndexDomain ?_ ps _
  rw [h.memory]
  exact .of_setChain ((cascadeAdvance_length ps).trans hl) _ _

end Sys2Proof.Machine

namespace Sys2Proof.Proofs

open Sys2Proof.Machine

/-- Settles O11: every write of a command keeps the invariant, an error writes nothing, and the reset input and the
waiting step keep it too. -/
theorem everyStepKeepsTheInvariant : Obligations.EveryStepKeepsTheInvariant := by
  intro s t h hstep
  have hpresent : ∀ rest, (s.present rest).Inv ∧ (s.presentCommand rest).Inv := fun _ => ⟨h, h⟩
  rcases step_next hstep with
    ⟨-, rfl⟩ | ⟨rest, -, rfl⟩ | ⟨cw, keyin, rest, e, -, -, rfl⟩ | ⟨cw, keyin, rest, i, -, -, he⟩
  · exact h
  · exact State.resetBlock_inv (hpresent rest).1
  · exact State.respond_inv (hpresent rest).2 _ _ _
  · exact exec_inv (hpresent rest).2 he

/-- Settles O36: a command that completes keys the stage of a KEY and no other, and one that is refused writes
nothing; a KEY is refused only for a stage that is not there. -/
theorem keyedIsSetByKeyAndClearedOnlyByReset : Obligations.KeyedIsSetByKeyAndClearedOnlyByReset := by
  refine ⟨fun i s t k he => ?_, fun s t rest k hp hstep => ?_, fun k => ?_⟩
  · rcases exec_next he with ⟨data, flag, u, hw, rfl⟩ | ⟨code, hr, rfl⟩
    · exact hw.keyed_iff k
    · refine (or_iff_left ?_).symm
      rintro ⟨hk, keyin, rfl⟩
      exact Nat.not_lt.mpr hr.nmax_le_of_key hk
  · obtain rfl := next_inj ((step_of_reset hp).symm.trans hstep)
    exact State.resetBlock_keyed _ k
  · exact State.resetBlock_keyed State.reset k

/-- Settles O37: CFG is the one command whose rule writes N, and it completes only with a legal operand. -/
theorem chainLengthIsWrittenOnlyByCfg : Obligations.ChainLengthIsWrittenOnlyByCfg := by
  refine ⟨fun i s t he hne => ?_, fun s t rest hp hstep => ?_, rfl⟩
  · rcases exec_next he with ⟨data, flag, u, hw, rfl⟩ | ⟨code, -, rfl⟩
    · exact hw.n_eq_or_cfg.resolve_left hne
    · exact absurd rfl hne
  · obtain rfl := next_inj ((step_of_reset hp).symm.trans hstep)
    rfl

/-- Settles O38: the checks of the chain and the value read only what the two states share, and an advance writes the
same positions to the active stages of both. -/
theorem inactiveStagesDoNotAffectTheChain : Obligations.InactiveStagesDoNotAffectTheChain := by
  intro i s s' t hi hn hnmax hmem hactive he
  have hsame : SameChain s s' := ⟨hn, hnmax, hmem, hactive⟩
  rcases hi with rfl | rfl | ⟨d, rfl⟩
  · exact hsame.execCval t he
  · exact hsame.execCadv t he
  · exact hsame.execXor d t he

/-- Settles O7: the decoded command runs once the host's sequence and its pc have moved on. -/
theorem stepRunsThePresentedCommand : Obligations.StepRunsThePresentedCommand :=
  fun _ _ _ _ _ hp hd => step_of_decode hp hd

/-- Settles O15: no check and no rule looks at the response, and whatever a command answers overwrites it. -/
theorem noCommandReadsAnEarlierResponse : Obligations.NoCommandReadsAnEarlierResponse := by
  intro i s r
  cases i <;> rfl

end Sys2Proof.Proofs
end

section
/-! PROOFS. The wheel tables (spec/20_memory.md): no step writes one, and a read outside its table faults by name. -/

namespace Sys2Proof.Machine

/-! ### The tables under every step (R44) -/

theorem Writes.memory {i : Instr} {s u : State} (h : Writes i s u) : u.memory = s.memory := by
  cases i with
  | nop => obtain rfl := h; rfl
  | cfg n => obtain ⟨-, -, rfl⟩ := h; exact s.setN_memory n
  | key k keyin => obtain ⟨-, rfl⟩ := h; exact s.setPos_memory k _
  | val k => obtain ⟨-, rfl⟩ := h; rfl
  | adv k => obtain ⟨p, -, -, rfl⟩ := h; exact s.setPos_memory k _
  | rdpos k w => obtain ⟨-, rfl⟩ := h; rfl
  | cval => obtain ⟨-, rfl⟩ := h; rfl
  | cadv => obtain ⟨ps, -, -, -, rfl⟩ := h; exact s.setChain_memory _
  | xor d => obtain ⟨ps, -, -, -, rfl⟩ := h; exact s.setChain_memory _

theorem exec_memory {i : Instr} {s t : State} (h : exec i s = .next t) : t.memory = s.memory := by
  rcases exec_next h with ⟨data, flag, u, hw, rfl⟩ | ⟨code, -, rfl⟩
  · exact (u.respond_memory _ _ _).trans hw.memory
  · exact s.respond_memory _ _ _

theorem step_memory {s t : State} (h : step s = .next t) : t.memory = s.memory := by
  rcases step_next h with
    ⟨-, rfl⟩ | ⟨rest, -, rfl⟩ | ⟨cw, keyin, rest, e, -, -, rfl⟩ | ⟨cw, keyin, rest, i, -, -, he⟩
  · rfl
  · simp
  · simp
  · exact (exec_memory he).trans (s.presentCommand_memory rest)

/-! ### The faults outside the invariant (R43, R25, R23; treatment U7) -/

theorem onIndexDomain_of_outOfRange {ps : List Positions} {reason : Fault} {body : Result}
    (h : ∃ p ∈ ps, p.inRange = false) : onIndexDomain ps reason body = .fault reason := by
  refine if_neg fun hall => ?_
  obtain ⟨p, hp, hout⟩ := h
  exact Bool.false_ne_true (hout.symm.trans (List.all_eq_true.mp hall p hp))

/-- A keyed stage whose positions lie outside their tables: the command gives the fault of its index check. -/
theorem onKeyedStage_of_outOfRange {k : Nat} {s : State} {p : Positions} (hp : s.stages[k]? = some (some p))
    (hout : p.inRange = false) (reason : Fault) (body : Positions → Result) :
    onKeyedStage k s (fun q => onIndexDomain [q] reason (body q)) = .fault reason := by
  rw [onKeyedStage_of_pos (State.pos_eq_some.mpr hp)]
  exact onIndexDomain_of_outOfRange ⟨p, List.mem_singleton_self p, hout⟩

theorem onKeyedChain_of_illegal {s : State} (h : ¬ (1 ≤ s.n.toNat ∧ s.n.toNat ≤ s.nmax))
    (body : List Positions → Result) : onKeyedChain s body = .fault .chainLengthOutOfRange :=
  if_neg (mt State.chainLegal_iff.mp h)

theorem onKeyedChain_of_chain {s : State} {ps : List Positions} (hl : s.chainLegal = true) (hc : s.chain = some ps)
    (body : List Positions → Result) : onKeyedChain s body = body ps := by
  rw [onKeyedChain, if_pos hl, hc]

/-- A keyed chain with a stage whose positions lie outside their tables: the command gives the fault of its index
check. -/
theorem onKeyedChain_of_outOfRange {s : State} {ps : List Positions} (hl : s.chainLegal = true)
    (hc : s.chain = some ps) (hout : ∃ p ∈ ps, p.inRange = false) (reason : Fault) (body : List Positions → Result) :
    onKeyedChain s (fun qs => onIndexDomain qs reason (body qs)) = .fault reason :=
  (onKeyedChain_of_chain hl hc _).trans (onIndexDomain_of_outOfRange hout)

/-- N is legal when N is not 0 and the first N stages are N stages. -/
theorem State.chainLegal_of_take {s : State} {ps : List Positions} (hn : 1 ≤ s.n.toNat)
    (hlen : ps.length = s.n.toNat) (htake : s.stages.take s.n.toNat = ps.map some) : s.chainLegal = true := by
  have htaken : min s.n.toNat s.nmax = s.n.toNat := by
    simpa [State.nmax, hlen] using congrArg List.length htake
  exact State.chainLegal_iff.mpr ⟨hn, min_eq_left_iff.mp htaken⟩

end Sys2Proof.Machine

namespace Sys2Proof.Proofs

open Sys2Proof.Machine

/-- Settles O35: a command writes stages or N, an error and the reset input leave the memory alone, and TableRead reads
nothing else. -/
theorem noStepWritesTheWheelTables : Obligations.NoStepWritesTheWheelTables := by
  intro s t h k w i
  rw [step_memory h]

/-- Settles O21: the chain's length is checked first, then that the stages are keyed, then the indices, and the command
stops at the first check of the model's own that fails. -/
theorem statesOutsideTheInvariantStopByName : Obligations.StatesOutsideTheInvariantStopByName := by
  refine ⟨fun s k p hp hout => ?_, fun s hn => ?_, fun s ps hn hlen htake hout => ?_⟩
  · exact ⟨onKeyedStage_of_outOfRange hp hout _ _, onKeyedStage_of_outOfRange hp hout _ _⟩
  · have hillegal : ¬ (1 ≤ s.n.toNat ∧ s.n.toNat ≤ s.nmax) := by omega
    exact ⟨onKeyedChain_of_illegal hillegal _, onKeyedChain_of_illegal hillegal _,
      fun _ => onKeyedChain_of_illegal hillegal _⟩
  · have hlegal := State.chainLegal_of_take hn hlen htake
    have hchain : s.chain = some ps := State.chain_eq_some.mpr htake
    have hfault := onKeyedChain_of_outOfRange hlegal hchain hout
    exact ⟨hfault _ _, hfault _ _, fun _ => hfault _ _⟩

end Sys2Proof.Proofs
end

section
/-! PROOFS. The encoding (spec/30_encoding.md): the decoder and the encoder undo each other, a reserved word answers
ILLEGAL, CHAIN keys the whole chain, and the assembler reads what the disassembler writes and nothing ill-formed. -/

namespace Sys2Proof

/-! ### The encoder after the decoder (R61, R67, R68) -/

/-- The W field holds 0 where no command uses it: in every row but RDPOS. -/
theorem fieldW_of_rowMatches {cw : CommandWord} {r : DecodeRow} (hr : r ∈ decodeTable)
    (h : rowMatches cw r = true) (hm : r.mnemonic ≠ .rdpos) : fieldW cw = 0#3 := by
  have hall : ∀ r ∈ decodeTable, r.mnemonic ≠ .rdpos →
      r.mask.extractLsb' 16 3 = BitVec.allOnes 3 ∧ r.pattern.extractLsb' 16 3 = 0#3 := by decide
  have ⟨hmask, hpattern⟩ := hall r hr hm
  exact (field_of_rowMatches hmask h).trans hpattern

/-- The K field holds 0 in every row but the four with a stage operand. -/
theorem fieldK_of_rowMatches {cw : CommandWord} {r : DecodeRow} (hr : r ∈ decodeTable)
    (h : rowMatches cw r = true) (hm : r.mnemonic ∉ [.key, .val, .adv, .rdpos]) : fieldK cw = 0#8 := by
  have hall : ∀ r ∈ decodeTable, r.mnemonic ∉ [.key, .val, .adv, .rdpos] →
      r.mask.extractLsb' 8 8 = BitVec.allOnes 8 ∧ r.pattern.extractLsb' 8 8 = 0#8 := by decide
  have ⟨hmask, hpattern⟩ := hall r hr hm
  exact (field_of_rowMatches hmask h).trans hpattern

/-- The D field holds 0 in every row but CFG and XOR. -/
theorem fieldD_of_rowMatches {cw : CommandWord} {r : DecodeRow} (hr : r ∈ decodeTable)
    (h : rowMatches cw r = true) (hm : r.mnemonic ∉ [.cfg, .xor]) : fieldD cw = 0#8 := by
  have hall : ∀ r ∈ decodeTable, r.mnemonic ∉ [.cfg, .xor] →
      r.mask.extractLsb' 0 8 = BitVec.allOnes 8 ∧ r.pattern.extractLsb' 0 8 = 0#8 := by decide
  have ⟨hmask, hpattern⟩ := hall r hr hm
  exact (field_of_rowMatches hmask h).trans hpattern

/-- A word that matches a row is its row's opcode and its other fields, with RSV = 0. -/
theorem eq_packFields_of_rowMatches {cw : CommandWord} {r : DecodeRow} (hr : r ∈ decodeTable)
    (h : rowMatches cw r = true) : cw = packFields r.mnemonic.op (fieldW cw) (fieldK cw) (fieldD cw) := by
  have hcw := packed_fields cw
  rw [fieldOp_of_rowMatches hr h, fieldRsv_of_rowMatches hr h] at hcw
  exact hcw

@[simp] theorem stageField_fieldK (cw : CommandWord) : stageField (fieldK cw).toNat = fieldK cw := by
  simp [stageField]

/-- The command of a row encodes to the word it was read from: the fields it does not carry are 0. -/
theorem encodeWord_instrOfRow {cw : CommandWord} {r : DecodeRow} (hr : r ∈ decodeTable)
    (h : rowMatches cw r = true) (keyin : KeyOperand) : encodeWord (instrOfRow r.mnemonic cw keyin) = cw := by
  have hcw := eq_packFields_of_rowMatches hr h
  have hw := fieldW_of_rowMatches hr h
  have hk := fieldK_of_rowMatches hr h
  have hd := fieldD_of_rowMatches hr h
  generalize r.mnemonic = m at hcw hw hk hd
  refine Eq.trans ?_ hcw.symm
  cases m <;> simp [instrOfRow, encodeWord, wheelField_ofField, hw, hk, hd]

/-! ### The decoder after the encoder -/

/-- Every command's word matches the row of its mnemonic. -/
theorem encode_matches_row (i : Instr) : Laws.EncodeMatchesRow.Statement i :=
  match i with
  | .nop => Laws.EncodeMatchesRow.nop
  | .cfg n => Laws.EncodeMatchesRow.cfg n
  | .key k keyin => Laws.EncodeMatchesRow.key k keyin
  | .val k => Laws.EncodeMatchesRow.val k
  | .adv k => Laws.EncodeMatchesRow.adv k
  | .rdpos k w => Laws.EncodeMatchesRow.rdpos k w
  | .cval => Laws.EncodeMatchesRow.cval
  | .cadv => Laws.EncodeMatchesRow.cadv
  | .xor d => Laws.EncodeMatchesRow.xor d

/-- The fields of a well-formed command's word are its operands; only KEY takes one from KEYIN. -/
theorem instrOfRow_encodeWord {i : Instr} (hwf : i.wf = true) {keyin : KeyOperand}
    (hkey : ∀ k key, i = .key k key → key = keyin) : instrOfRow i.mnemonic (encodeWord i) keyin = i := by
  cases i with
  | nop => rfl
  | cfg n => exact congrArg Instr.cfg (fieldD_packFields ..)
  | key k key =>
    obtain rfl := hkey k key rfl
    simp only [Instr.mnemonic, instrOfRow, encodeWord, fieldK_packFields, stageField_toNat hwf]
  | val k => simp only [Instr.mnemonic, instrOfRow, encodeWord, fieldK_packFields, stageField_toNat hwf]
  | adv k => simp only [Instr.mnemonic, instrOfRow, encodeWord, fieldK_packFields, stageField_toNat hwf]
  | rdpos k w =>
    simp only [Instr.mnemonic, instrOfRow, encodeWord, fieldK_packFields, fieldW_packFields, stageField_toNat hwf,
      Wheel.ofField_wheelField]
  | cval => rfl
  | cadv => rfl
  | xor d => exact congrArg Instr.xor (fieldD_packFields ..)

/-- A well-formed command's word decodes to it beside its key operand, and beside any for a command without one. -/
theorem decode_encodeWord {i : Instr} (hwf : i.wf = true) {keyin : KeyOperand}
    (hkey : ∀ k key, i = .key k key → key = keyin) : decode (encodeWord i) keyin = .ok i := by
  obtain ⟨r, hr, hm, hmatch⟩ := encode_matches_row i
  rw [decode_of_row hr hmatch, hm, instrOfRow_encodeWord hwf hkey]

theorem decode_encode {i : Instr} (hwf : i.wf = true) : decode (encodeWord i) (encodeKeyin i) = .ok i :=
  decode_encodeWord hwf fun k key hi => by rw [hi, encodeKeyin]

theorem wf_of_decode {cw : CommandWord} {keyin : KeyOperand} {i : Instr} (h : decode cw keyin = .ok i) :
    i.wf = true := by
  obtain ⟨r, -, -, rfl⟩ := row_of_decode h
  exact instrOfRow_wf ..

/-! ### The rows of R68 -/

/-- A word is the command named in a row exactly when it matches the row: no other row has that mnemonic. -/
theorem decode_mnemonic_iff {r : DecodeRow} (hr : r ∈ decodeTable) (cw : CommandWord) (keyin : KeyOperand) :
    (∃ i, decode cw keyin = .ok i ∧ i.mnemonic = r.mnemonic) ↔ cw &&& r.mask = r.pattern := by
  have hrow : rowMatches cw r = true ↔ cw &&& r.mask = r.pattern := beq_iff_eq
  have hinj : ∀ r ∈ decodeTable, ∀ q ∈ decodeTable, q.mnemonic = r.mnemonic → q = r := by decide
  rw [← hrow]
  constructor
  · rintro ⟨i, hd, hm⟩
    obtain ⟨q, hq, hmatch, rfl⟩ := row_of_decode hd
    rw [instrOfRow_mnemonic] at hm
    exact hinj r hr q hq hm ▸ hmatch
  · intro hmatch
    exact ⟨_, decode_of_row hr hmatch, instrOfRow_mnemonic ..⟩

/-- A reserved opcode or a nonzero RSV matches no row (R69, R70). -/
theorem rowMatches_of_reserved {cw : CommandWord} (h : 0x9#4 ≤ fieldOp cw ∨ fieldRsv cw ≠ 0#9) :
    ∀ r ∈ decodeTable, rowMatches cw r = false := by
  have hassigned : ∀ r ∈ decodeTable, ¬ 0x9#4 ≤ r.mnemonic.op := by decide
  intro r hr
  refine Bool.eq_false_iff.mpr fun hmatch => ?_
  rcases h with hop | hrsv
  · exact hassigned r hr (fieldOp_of_rowMatches hr hmatch ▸ hop)
  · exact hrsv (fieldRsv_of_rowMatches hr hmatch)

end Sys2Proof

namespace Sys2Proof.Machine

theorem step_of_illegal {s : State} {cw : CommandWord} {keyin : KeyOperand} {rest : List HostInput} {e : IllegalWord}
    (hp : s.pending = .command cw keyin :: rest) (hd : decode cw keyin = .error e) :
    step s = raiseError .illegal (s.presentCommand rest) := by
  simp only [step, hp, hd]

/-! ### CHAIN (R73) -/

theorem exec_cfg_queue {n : Byte} {s : State} (h1 : 1 ≤ n.toNat) (hn : n.toNat ≤ s.nmax) (is : List Instr) :
    exec (.cfg n) (s.queue is) = completes ((s.setN n).queue is) 0x00#8 false := by
  refine if_neg ?_
  rintro (rfl | hlt)
  · exact absurd h1 (by decide)
  · exact Nat.not_lt.mpr hn hlt

theorem exec_key_queue {k : Nat} {s : State} (hk : k < s.nmax) (keyin : KeyOperand) (is : List Instr) :
    exec (.key k keyin) (s.queue is) = completes ((s.setPos k (keySchedule keyin)).queue is) 0x00#8 false :=
  onStage_of_lt hk

/-- A run from a queue whose first command is well-formed and answers OK without data. -/
theorem transcript_queue_cons {s v u : State} {i : Instr} {is : List Instr} {rs : List Response} (hwf : i.wf = true)
    (hexec : exec i ((s.presentCommand s.pending).queue is) = completes (v.queue is) 0x00#8 false)
    (htail : transcript is.length ((v.respond .ok 0x00#8 false).queue is) = some (rs, u)) :
    transcript (i :: is).length (s.queue (i :: is)) = some (⟨.ok, 0x00#8, false⟩ :: rs, u) := by
  have hstep := (step_queue_cons (s := s) (is := is) (decode_encode hwf)).trans hexec
  rw [List.length_cons, transcript_succ hstep rfl]
  exact congrArg (Option.map _) htail

theorem take_succ_set {α : Type} {l : List α} {k : Nat} (hk : k < l.length) (x : α) :
    (l.set k x).take (k + 1) = l.take k ++ [x] := by
  rw [List.take_succ_eq_append_getElem (by simpa using hk), List.take_set, List.getElem_set_self,
    List.set_eq_of_length_le (by simp)]

/-- KEY k, KEY k+1, ... for stages of the block: every response is OK, N stays, and exactly those stages are written. -/
theorem transcript_keyCommandsFrom (keys : List KeyOperand) {k : Nat} {s : State} (hk : k + keys.length ≤ s.nmax)
    (hfits : k + keys.length ≤ 256) :
    ∃ u, transcript (keyCommandsFrom k keys).length (s.queue (keyCommandsFrom k keys)) =
        some (List.replicate keys.length ⟨.ok, 0x00#8, false⟩, u) ∧ u.n = s.n ∧
      u.stages = s.stages.take k ++ keys.map (fun key => some (keySchedule key)) ++
        s.stages.drop (k + keys.length) := by
  induction keys generalizing k s with
  | nil => exact ⟨s, rfl, rfl, by simp⟩
  | cons key keys ih =>
    rw [List.length_cons] at hk hfits
    have hlt : k < s.nmax := by omega
    have hwf : (Instr.key k key).wf = true := by simpa [Instr.wf, stageFits] using by omega
    obtain ⟨u, hrun, hn, hstages⟩ := ih (k := k + 1)
      (s := ((s.presentCommand s.pending).setPos k (keySchedule key)).respond .ok 0x00#8 false)
      (by simp only [State.respond_nmax, State.setPos_nmax, State.presentCommand_nmax]; omega) (by omega)
    have hlt' : k < (s.presentCommand s.pending).nmax := hlt
    refine ⟨u, transcript_queue_cons hwf (exec_key_queue hlt' key _) hrun, hn, hstages.trans ?_⟩
    have hdrop : (s.stages.set k (some (keySchedule key))).drop (k + 1 + keys.length) =
        s.stages.drop (k + (keys.length + 1)) := by
      rw [List.drop_set_of_lt (by omega), Nat.add_assoc, Nat.add_comm 1]
    simp [take_succ_set hlt, hdrop]

end Sys2Proof.Machine

namespace Sys2Proof.Machine

open Sys2Proof.Claims

/-! ### The tokens of a line (R72) -/

/-- A word of a line: one or more letters and digits. -/
abbrev IsWord (ws : List Char) : Prop := ws ≠ [] ∧ ∀ c ∈ ws, WordChar c

theorem IsWord.lex {ws : List Char} (h : IsWord ws) : lexFrom [] ws = [.word ws] :=
  lexFrom_word h.2 h.1

theorem IsWord.lex_space {ws : List Char} (h : IsWord ws) (rest : List Char) :
    lexFrom [] (ws ++ ' ' :: rest) = .word ws :: lexFrom [] rest :=
  lexFrom_word_cons h.2 h.1 (by decide) (by decide) rest

theorem IsWord.lex_comma {ws : List Char} (h : IsWord ws) (rest : List Char) :
    lexFrom [] (ws ++ ',' :: rest) = .word ws :: .comma :: lexFrom [] rest :=
  lexFrom_word_cons h.2 h.1 (by decide) (by decide) rest

theorem lexFrom_space (rest : List Char) : lexFrom [] (' ' :: rest) = lexFrom [] rest :=
  lexFrom_separator (by decide) (by decide) rest

theorem lexFrom_hash (rest : List Char) : lexFrom [] ('#' :: rest) = .hash :: lexFrom [] rest :=
  lexFrom_separator (by decide) (by decide) rest

/-- `item` is read as the tokens `ts` when the character after it ends a word. -/
def LexesTo (item : List Char) (ts : List Token) : Prop :=
  ∀ c rest, c.isAlphanum = false → c ≠ ';' →
    lexFrom [] (item ++ c :: rest) = ts ++ (separatorToken c ++ lexFrom [] rest)

theorem IsWord.lexesTo {ws : List Char} (h : IsWord ws) : LexesTo ws [.word ws] :=
  fun _ rest hc hc' => lexFrom_word_cons h.2 h.1 hc hc' rest

theorem IsWord.lexesTo_hash {ws : List Char} (h : IsWord ws) : LexesTo ('#' :: ws) [.hash, .word ws] :=
  fun c rest hc hc' => (lexFrom_hash _).trans (congrArg _ (h.lexesTo c rest hc hc'))

/-- A list in braces is read item by item. -/
theorem lexFrom_braced {α : Type} {f : α → List Char} {g : α → List Token} {l : List α}
    (h : ∀ x ∈ l, LexesTo (f x) (g x)) :
    lexFrom [] (braced (l.map f)) = .openBrace :: (List.intercalate [.comma] (l.map g) ++ [.closeBrace]) := by
  have hclose : lexFrom [] [Char.ofNat 125] = [.closeBrace] := by decide
  have hitems : lexFrom [] (List.intercalate [','] (l.map f) ++ [Char.ofNat 125]) =
      List.intercalate [.comma] (l.map g) ++ [.closeBrace] := by
    induction l with
    | nil => exact hclose
    | cons x l ih =>
      have hx := h x List.mem_cons_self
      cases l with
      | nil =>
        simp only [List.map_cons, List.map_nil, List.intercalate_singleton]
        exact hx (Char.ofNat 125) [] (by decide) (by decide)
      | cons y l =>
        have ih := ih fun z hz => h z (List.mem_cons_of_mem x hz)
        simp only [List.map_cons, List.intercalate_cons_cons, List.append_assoc, List.cons_append,
          List.nil_append] at ih ⊢
        rw [hx ',' _ (by decide) (by decide), ih]
        rfl
  have hopen := lexFrom_separator (c := Char.ofNat 123) (by decide) (by decide)
    (List.intercalate [','] (l.map f) ++ [Char.ofNat 125])
  rw [hitems] at hopen
  exact hopen

/-! ### Numbers (R72) -/

/-- `c` stands in a word, and the assembler reads it as the digit it is, below the base. -/
abbrev IsDigit (base : Nat) (c : Char) : Prop :=
  WordChar c ∧ digitValue c = some (digitOf c) ∧ digitOf c < base

theorem isDigit_hexadecimal : ∀ c ∈ digitChars, IsDigit 16 c := by
  have hall : digitChars.all (fun c => decide (IsDigit 16 c)) = true := by decide
  simpa using hall

theorem isDigit_decimal : ∀ c ∈ digitChars.take 10, IsDigit 10 c := by
  have hall : (digitChars.take 10).all (fun c => decide (IsDigit 10 c)) = true := by decide
  simpa using hall

theorem digitsValue_eq_numeralValue {base : Nat} {cs : List Char}
    (h : ∀ c ∈ cs, digitValue c = some (digitOf c) ∧ digitOf c < base) :
    digitsValue base 0 cs = some (numeralValue base cs) :=
  digitsValue_eq_foldl h 0

/-- A numeral is read as the number it writes. -/
theorem parseNumber_of_spells {cs : List Char} {v : Nat} (h : Spells cs v) : parseNumber cs = some v := by
  rcases h with ⟨hne, hall, rfl⟩ | ⟨ds, rfl, hne, hall, rfl⟩
  · have hdec : ∀ c ∈ cs, c ∈ digitChars.take 10 := by simpa using hall
    unfold parseNumber
    split
    · exact absurd rfl hne
    · exact absurd (hdec 'x' (by simp)) (by decide)
    · exact digitsValue_eq_numeralValue fun c hc => (isDigit_decimal c (hdec c hc)).2
  · obtain ⟨d, ds, rfl⟩ := List.exists_cons_of_ne_nil hne
    have hhex : ∀ c ∈ d :: ds, c ∈ digitChars := by simpa using hall
    exact digitsValue_eq_numeralValue fun c hc => (isDigit_hexadecimal c (hhex c hc)).2

theorem isWord_of_spells {cs : List Char} {v : Nat} (h : Spells cs v) : IsWord cs := by
  rcases h with ⟨hne, hall, -⟩ | ⟨ds, rfl, -, hall, -⟩
  · have hdec : ∀ c ∈ cs, c ∈ digitChars.take 10 := by simpa using hall
    exact ⟨hne, fun c hc => (isDigit_decimal c (hdec c hc)).1⟩
  · have hhex : ∀ c ∈ ds, c ∈ digitChars := by simpa using hall
    refine ⟨List.cons_ne_nil _ _, List.forall_mem_cons.mpr ⟨by decide, List.forall_mem_cons.mpr ⟨by decide, ?_⟩⟩⟩
    exact fun c hc => (isDigit_hexadecimal c (hhex c hc)).1

theorem parseBelow_of_spells {cs : List Char} {v : Nat} (h : Spells cs v) (bound : Nat) :
    parseBelow bound cs = if v < bound then some v else none := by
  simp [parseBelow, parseNumber_of_spells h]

theorem parseStage_of_spells {cs : List Char} {v : Nat} (h : Spells cs v) :
    parseStage cs = if v ≤ 255 then some v else none := by
  simp only [parseStage, parseBelow_of_spells h, ← Nat.lt_succ_iff]

theorem parseByte_of_spells {cs : List Char} {v : Nat} (h : Spells cs v) :
    parseByte cs = if v ≤ 255 then some (BitVec.ofNat 8 v) else none := by
  simp only [parseByte, parseBelow_of_spells h, apply_ite (Option.map _), Option.map_some, Option.map_none,
    ← Nat.lt_succ_iff]

theorem parseKey_of_spells {cs : List Char} {v : Nat} (h : Spells cs v) :
    parseKey cs = if v < 2 ^ 64 then some (BitVec.ofNat 64 v) else none := by
  simp only [parseKey, parseBelow_of_spells h, apply_ite (Option.map _), Option.map_some, Option.map_none]

theorem parseStage_fits {cs : List Char} {k : Nat} (h : parseStage cs = some k) : stageFits k = true := by
  unfold parseStage parseBelow at h
  split at h
  · cases h
  · split at h
    · next hk =>
      obtain rfl := Option.some.inj h
      exact decide_eq_true (Nat.le_of_lt_succ hk)
    · cases h

/-! ### Wheels (R6, R72) -/

theorem parseWheel_letter (w : Wheel) : parseWheel [wheelLetter w] = some w := by
  cases w <;> rfl

theorem isWord_wheelLetter (w : Wheel) : IsWord [wheelLetter w] := by
  refine ⟨List.cons_ne_nil _ _, List.forall_mem_singleton.mpr ?_⟩
  cases w <;> decide

/-- No numeral is a wheel's letter: a decimal one has digits only, a hexadecimal one two characters or more. -/
theorem ne_wheelLetter_of_spells {cs : List Char} {v : Nat} (h : Spells cs v) (w : Wheel) : cs ≠ [wheelLetter w] := by
  rintro rfl
  rcases h with ⟨-, hall, -⟩ | ⟨ds, hds, -⟩
  · cases w <;> exact absurd hall (by decide)
  · simp at hds

theorem parseWheel_of_not_letter {cs : List Char} (h : ∀ w, cs ≠ [wheelLetter w]) :
    parseWheel cs = (parseNumber cs).bind Wheel.ofIndex? := by
  unfold parseWheel
  split
  · exact absurd rfl (h .a)
  · exact absurd rfl (h .b)
  · exact absurd rfl (h .c)
  · exact absurd rfl (h .d)
  · exact absurd rfl (h .e)
  · exact absurd rfl (h .f)
  · exact absurd rfl (h .g)
  · exact absurd rfl (h .h)
  · rfl

theorem ofIndex?_eq_getD (d : Nat) :
    Wheel.ofIndex? d = if d ≤ 7 then some ([Wheel.a, .b, .c, .d, .e, .f, .g, .h].getD d .a) else none := by
  split
  · next hd => interval_cases d <;> rfl
  · next hd =>
    obtain ⟨n, rfl⟩ : ∃ n, d = n + 8 := ⟨d - 8, by omega⟩
    rfl

theorem parseWheel_of_spells {cs : List Char} {d : Nat} (h : Spells cs d) :
    parseWheel cs = if d ≤ 7 then some ([Wheel.a, .b, .c, .d, .e, .f, .g, .h].getD d .a) else none := by
  rw [parseWheel_of_not_letter (ne_wheelLetter_of_spells h), parseNumber_of_spells h, Option.bind_some, ofIndex?_eq_getD]

/-! ### Lists (R72, R73) -/

/-- A list is accepted exactly when every item is. -/
theorem mapM_eq_ite {α β γ : Type} {f : β → Option γ} {item : α → β} {p : α → Prop} [DecidablePred p] {g : α → γ}
    {l : List α} (h : ∀ x ∈ l, f (item x) = if p x then some (g x) else none) :
    (l.map item).mapM f = if ∀ x ∈ l, p x then some (l.map g) else none := by
  induction l with
  | nil => rfl
  | cons x l ih =>
    obtain ⟨hx, hl⟩ := List.forall_mem_cons.mp h
    simp only [List.map_cons, List.mapM_cons, hx, ih hl, List.forall_mem_cons]
    by_cases hpx : p x
    · by_cases hpl : ∀ y ∈ l, p y
      · rw [if_pos hpx, if_pos hpl, if_pos ⟨hpx, hpl⟩]
        rfl
      · rw [if_pos hpx, if_neg hpl, if_neg (mt And.right hpl)]
        rfl
    · rw [if_neg hpx, if_neg (mt And.left hpx)]
      rfl

theorem parseByteList_intercalate {ws : List (List Char)} (hne : ws ≠ []) :
    parseByteList (List.intercalate [.comma] (ws.map fun w => [.word w]) ++ [.closeBrace]) = ws.mapM parseByte := by
  induction ws with
  | nil => exact absurd rfl hne
  | cons w ws ih =>
    cases ws with
    | nil => cases hw : parseByte w <;> simp [parseByteList, hw]
    | cons w' ws =>
      have ih := ih (List.cons_ne_nil _ _)
      simp only [List.map_cons, List.intercalate_cons_cons, List.cons_append, List.nil_append] at ih ⊢
      rw [parseByteList, ih, List.mapM_cons (a := w)]
      generalize List.mapM parseByte (w' :: ws) = rest
      cases parseByte w <;> cases rest <;> rfl

/-- A list of numerals in braces, up to its closing brace: its bytes, when every one fits. -/
theorem parseByteList_of_spells {bs : List (List Char × Nat)} (hne : bs ≠ []) (h : ∀ b ∈ bs, Spells b.1 b.2) :
    parseByteList (List.intercalate [.comma] (bs.map fun b => [.word b.1]) ++ [.closeBrace]) =
      if ∀ b ∈ bs, b.2 ≤ 255 then some (bs.map fun b => BitVec.ofNat 8 b.2) else none := by
  rw [← mapM_eq_ite fun b hb => parseByte_of_spells (h b hb), ← parseByteList_intercalate (by simpa using hne),
    List.map_map]
  rfl

/-- The bytes of a key, first byte least significant, are the digits of the key in base 256 (R66). -/
theorem keyOfBytes_eq_ofDigits {vs : List Nat} (h : ∀ v ∈ vs, v ≤ 255) :
    keyOfBytes (vs.map (BitVec.ofNat 8)) = BitVec.ofNat 64 (Nat.ofDigits 256 vs) := by
  induction vs with
  | nil => rfl
  | cons v vs ih =>
    obtain ⟨hv, hvs⟩ := List.forall_mem_cons.mp h
    have hlane : (BitVec.ofNat 8 v).setWidth 64 = BitVec.ofNat 64 v :=
      BitVec.eq_of_toNat_eq (by simp; omega)
    have hshift (n : Nat) : BitVec.ofNat 64 n <<< 8 = BitVec.ofNat 64 (n <<< 8) :=
      BitVec.eq_of_toNat_eq (by simp [Nat.shiftLeft_eq, Nat.mod_mul_mod])
    calc keyOfBytes ((v :: vs).map (BitVec.ofNat 8))
        = keyOfBytes (vs.map (BitVec.ofNat 8)) <<< 8 ||| (BitVec.ofNat 8 v).setWidth 64 := rfl
      _ = BitVec.ofNat 64 (Nat.ofDigits 256 vs <<< 8 ||| v) := by rw [ih hvs, hlane, hshift, BitVec.ofNat_or]
      _ = BitVec.ofNat 64 (Nat.ofDigits 256 (v :: vs)) := by
        rw [← Nat.shiftLeft_add_eq_or_of_lt (by omega), Nat.ofDigits_cons, Nat.shiftLeft_eq, Nat.add_comm,
          Nat.mul_comm]

/-! ### Mnemonics (R72) -/

theorem isWord_of_names {name m : List Char} (h : Names name m) (hm : IsWord m) : IsWord name := by
  obtain rfl := h
  exact ⟨by simpa using hm.1, fun c hc => wordChar_of_toUpper (hm.2 _ (List.mem_map_of_mem hc))⟩

/-- A check that `decide` can run on a closed list. -/
theorem isWord_of_all {ws : List Char} (hne : ws ≠ []) (h : ws.all (fun c => c.isAlphanum && c != ';') = true) :
    IsWord ws :=
  ⟨hne, by simpa using h⟩

theorem isWord_spelling (m : Mnemonic) : IsWord (spelling m) := by
  cases m <;> exact isWord_of_all (by decide) (by decide)

theorem isWord_of_names_spelling {name : List Char} {m : Mnemonic} (h : Names name (spelling m)) : IsWord name :=
  isWord_of_names h (isWord_spelling m)

theorem names_spelling (m : Mnemonic) : Names (spelling m) (spelling m) := by
  cases m <;> decide

theorem parseMnemonic_of_names {name : List Char} {m : Mnemonic} (h : Names name (spelling m)) :
    parseMnemonic name = some m := by
  rw [parseMnemonic, h]
  cases m <;> decide

/-! ### A line that is a command (R72) -/

/-- What the assembler makes of a line from the command its operands give. -/
def Assembled.ofOption : Option Instr → Assembled
  | some i => .command i
  | none => .refused

theorem Assembled.ofOption_ite (p : Prop) [Decidable p] (i : Instr) :
    Assembled.ofOption (if p then some i else none) = if p then .command i else .refused :=
  apply_ite Assembled.ofOption p _ _

/-- A command whose two operands are each checked, the second one first. -/
theorem Assembled.ofOption_bind_ite {α : Type} (p q : Prop) [Decidable p] [Decidable q] (x : α) (f : α → Instr) :
    Assembled.ofOption ((if q then some x else none).bind fun x => if p then some (f x) else none) =
      if p ∧ q then .command (f x) else .refused := by
  by_cases hq : q
  · simp [hq, Assembled.ofOption_ite]
  · simp [hq, Assembled.ofOption]

/-- The assembler's answer to a line whose first word is a mnemonic is that of its operands. -/
theorem assembleLine_of_names {line name : List Char} {ts : List Token} {m : Mnemonic}
    (hline : lexFrom [] line = .word name :: ts) (hn : Names name (spelling m)) :
    assembleLine line = Assembled.ofOption (parseOperands m ts) := by
  simp only [assembleLine, lexLine, hline, parseMnemonic_of_names hn, Option.bind_some]
  cases parseOperands m ts <;> rfl

/-- A mnemonic with one operand, which is accepted when the check `p` holds. -/
theorem assembleLine_of_operand {line name : List Char} {ts : List Token} {m : Mnemonic} {α : Type} {p : Prop}
    [Decidable p] {x : α} {command : α → Instr} (hline : lexFrom [] line = .word name :: ts)
    (hn : Names name (spelling m)) (hoperand : parseOperands m ts = (if p then some x else none).map command) :
    assembleLine line = if p then .command (command x) else .refused := by
  rw [assembleLine_of_names hline hn, hoperand, apply_ite (Option.map command)]
  exact Assembled.ofOption_ite ..

section
variable {name ks ds : List Char} {k d : Nat}

theorem lexFrom_value (hn : IsWord name) (hd : IsWord ds) :
    lexFrom [] (name ++ [' ', '#'] ++ ds) = [.word name, .hash, .word ds] := by
  simp only [List.append_assoc, List.cons_append, List.nil_append, hn.lex_space, lexFrom_hash, hd.lex]

theorem lexFrom_word_word (hn : IsWord name) (hk : IsWord ks) :
    lexFrom [] (name ++ [' '] ++ ks) = [.word name, .word ks] := by
  simp only [List.append_assoc, List.cons_append, List.nil_append, hn.lex_space, hk.lex]

theorem lexFrom_word_word_comma (hn : IsWord name) (hk : IsWord ks) (rest : List Char) :
    lexFrom [] (name ++ [' '] ++ ks ++ [',', ' '] ++ rest) = .word name :: .word ks :: .comma :: lexFrom [] rest := by
  simp only [List.append_assoc, List.cons_append, List.nil_append, hn.lex_space, hk.lex_comma, lexFrom_space]

theorem assembleLine_cfg (hn : Names name (spelling .cfg)) (hd : Spells ds d) :
    assembleLine (name ++ [' ', '#'] ++ ds) = if d ≤ 255 then .command (.cfg (BitVec.ofNat 8 d)) else .refused :=
  assembleLine_of_operand (lexFrom_value (isWord_of_names_spelling hn) (isWord_of_spells hd)) hn
    (congrArg (Option.map Instr.cfg) (parseByte_of_spells hd))

theorem assembleLine_xor (hn : Names name (spelling .xor)) (hd : Spells ds d) :
    assembleLine (name ++ [' ', '#'] ++ ds) = if d ≤ 255 then .command (.xor (BitVec.ofNat 8 d)) else .refused :=
  assembleLine_of_operand (lexFrom_value (isWord_of_names_spelling hn) (isWord_of_spells hd)) hn
    (congrArg (Option.map Instr.xor) (parseByte_of_spells hd))

theorem assembleLine_val (hn : Names name (spelling .val)) (hk : Spells ks k) :
    assembleLine (name ++ [' '] ++ ks) = if k ≤ 255 then .command (.val k) else .refused :=
  assembleLine_of_operand (lexFrom_word_word (isWord_of_names_spelling hn) (isWord_of_spells hk)) hn
    (congrArg (Option.map Instr.val) (parseStage_of_spells hk))

theorem assembleLine_adv (hn : Names name (spelling .adv)) (hk : Spells ks k) :
    assembleLine (name ++ [' '] ++ ks) = if k ≤ 255 then .command (.adv k) else .refused :=
  assembleLine_of_operand (lexFrom_word_word (isWord_of_names_spelling hn) (isWord_of_spells hk)) hn
    (congrArg (Option.map Instr.adv) (parseStage_of_spells hk))

/-- `RDPOS k, w` with the wheel in any spelling that is a word. -/
theorem assembleLine_rdpos {ws : List Char} (hn : Names name (spelling .rdpos)) (hk : Spells ks k) (hw : IsWord ws) :
    assembleLine (name ++ [' '] ++ ks ++ [',', ' '] ++ ws) =
      Assembled.ofOption ((parseWheel ws).bind fun w => if k ≤ 255 then some (.rdpos k w) else none) := by
  have hline := lexFrom_word_word_comma (isWord_of_names_spelling hn) (isWord_of_spells hk) ws
  rw [hw.lex] at hline
  rw [assembleLine_of_names hline hn, parseOperands, parseStage_of_spells hk]
  cases parseWheel ws <;> by_cases hfit : k ≤ 255 <;> simp [hfit]

/-- `KEY k, ` and the key operand. -/
theorem assembleLine_key (hn : Names name (spelling .key)) (hk : Spells ks k) (rest : List Char) :
    assembleLine (name ++ [' '] ++ ks ++ [',', ' '] ++ rest) =
      Assembled.ofOption ((parseKeyOperand (lexFrom [] rest)).bind fun keyin =>
        if k ≤ 255 then some (.key k keyin) else none) := by
  have hline := lexFrom_word_word_comma (isWord_of_names_spelling hn) (isWord_of_spells hk) rest
  rw [assembleLine_of_names hline hn, parseOperands, parseStage_of_spells hk]
  cases parseKeyOperand (lexFrom [] rest) <;> by_cases hfit : k ≤ 255 <;> simp [hfit]

theorem assembleLine_rdpos_number (hn : Names name (spelling .rdpos)) (hk : Spells ks k) (hd : Spells ds d) :
    assembleLine (name ++ [' '] ++ ks ++ [',', ' '] ++ ds) =
      if k ≤ 255 ∧ d ≤ 7 then .command (.rdpos k ([Wheel.a, .b, .c, .d, .e, .f, .g, .h].getD d .a)) else .refused := by
  rw [assembleLine_rdpos hn hk (isWord_of_spells hd), parseWheel_of_spells hd]
  exact Assembled.ofOption_bind_ite ..

theorem assembleLine_rdpos_letter (hn : Names name (spelling .rdpos)) (hk : Spells ks k) (w : Wheel) :
    assembleLine (name ++ [' '] ++ ks ++ [',', ' ', wheelLetter w]) =
      if k ≤ 255 then .command (.rdpos k w) else .refused := by
  have happend : name ++ [' '] ++ ks ++ [',', ' ', wheelLetter w] =
      name ++ [' '] ++ ks ++ [',', ' '] ++ [wheelLetter w] := by simp
  rw [happend, assembleLine_rdpos hn hk (isWord_wheelLetter w), parseWheel_letter]
  exact Assembled.ofOption_ite ..

theorem parseKeyOperand_value (hd : Spells ds d) :
    parseKeyOperand (lexFrom [] ('#' :: ds)) = if d < 2 ^ 64 then some (BitVec.ofNat 64 d) else none := by
  rw [lexFrom_hash, (isWord_of_spells hd).lex, parseKeyOperand, parseKey_of_spells hd]

theorem parseKeyOperand_bytes {bs : List (List Char × Nat)} (hb : ∀ b ∈ bs, Spells b.1 b.2) :
    parseKeyOperand (lexFrom [] (braced (bs.map Prod.fst))) =
      if bs.length = 8 ∧ ∀ b ∈ bs, b.2 ≤ 255 then
        some (BitVec.ofNat 64 (Nat.ofDigits 256 (bs.map Prod.snd))) else none := by
  rw [lexFrom_braced fun b hb' => (isWord_of_spells (hb b hb')).lexesTo]
  rcases eq_or_ne bs [] with rfl | hne
  · rfl
  rw [parseKeyOperand, parseByteList_of_spells hne hb]
  by_cases hfit : ∀ b ∈ bs, b.2 ≤ 255
  · have hkey := keyOfBytes_eq_ofDigits (vs := bs.map Prod.snd) (List.forall_mem_map.mpr hfit)
    rw [List.map_map] at hkey
    simp only [if_pos hfit, List.length_map, and_iff_left hfit, ← hkey]
    rfl
  · rw [if_neg hfit, if_neg (mt And.right hfit)]

theorem assembleLine_key_value (hn : Names name (spelling .key)) (hk : Spells ks k) (hd : Spells ds d) :
    assembleLine (name ++ [' '] ++ ks ++ [',', ' ', '#'] ++ ds) =
      if k ≤ 255 ∧ d < 2 ^ 64 then .command (.key k (BitVec.ofNat 64 d)) else .refused := by
  have happend : name ++ [' '] ++ ks ++ [',', ' ', '#'] ++ ds = name ++ [' '] ++ ks ++ [',', ' '] ++ '#' :: ds := by
    simp
  rw [happend, assembleLine_key hn hk, parseKeyOperand_value hd]
  exact Assembled.ofOption_bind_ite ..

theorem assembleLine_key_bytes {bs : List (List Char × Nat)} (hn : Names name (spelling .key)) (hk : Spells ks k)
    (hb : ∀ b ∈ bs, Spells b.1 b.2) :
    assembleLine (name ++ [' '] ++ ks ++ [',', ' '] ++ braced (bs.map Prod.fst)) =
      if k ≤ 255 ∧ bs.length = 8 ∧ ∀ b ∈ bs, b.2 ≤ 255 then
        .command (.key k (BitVec.ofNat 64 (Nat.ofDigits 256 (bs.map Prod.snd)))) else .refused := by
  rw [assembleLine_key hn hk, parseKeyOperand_bytes hb]
  exact Assembled.ofOption_bind_ite ..

end

/-! ### What the assembler accepts (R72) -/

theorem parseOperands_wf {m : Mnemonic} {ts : List Token} {i : Instr} (h : parseOperands m ts = some i) :
    i.wf = true := by
  unfold parseOperands at h
  split at h
  · cases h; rfl
  · obtain ⟨n, -, rfl⟩ := Option.map_eq_some_iff.mp h
    rfl
  · split at h
    · next hk _ => cases h; exact parseStage_fits hk
    · cases h
  · obtain ⟨k, hk, rfl⟩ := Option.map_eq_some_iff.mp h
    exact parseStage_fits hk
  · obtain ⟨k, hk, rfl⟩ := Option.map_eq_some_iff.mp h
    exact parseStage_fits hk
  · split at h
    · next hk _ => cases h; exact parseStage_fits hk
    · cases h
  · cases h; rfl
  · cases h; rfl
  · obtain ⟨d, -, rfl⟩ := Option.map_eq_some_iff.mp h
    rfl
  · cases h

theorem assembleLine_wf {line : List Char} {i : Instr} (h : assembleLine line = .command i) : i.wf = true := by
  unfold assembleLine at h
  split at h
  · cases h
  · split at h
    · next hi =>
      cases h
      obtain ⟨m, -, hops⟩ := Option.bind_eq_some_iff.mp hi
      exact parseOperands_wf hops
    · cases h
  · cases h

/-- Everything a pseudo-instruction expands to (R73). -/
theorem expandTokens_eq_some {ts : List Token} {is : List Instr} (h : expandTokens ts = some is) :
    (∃ ds, is = processCommands ds) ∨ (∃ n keys, chainCommands n keys = some is) ∨ ∃ l, is = skipCommands l := by
  have hmessage {rest : List Token} (h : (parseMessage rest).map processCommands = some is) :
      ∃ ds, is = processCommands ds :=
    have ⟨ds, _, hds⟩ := Option.map_eq_some_iff.mp h
    ⟨ds, hds.symm⟩
  unfold expandTokens at h
  split at h
  · cases h
  · dsimp only at h
    split at h
    · exact .inl (hmessage h)
    split at h
    · exact .inl (hmessage h)
    split at h
    · exact .inl (hmessage h)
    split at h
    · split at h
      · obtain ⟨n, -, hchain⟩ := Option.bind_eq_some_iff.mp h
        unfold parseChain at hchain
        split at hchain
        · cases hchain
        · exact .inr (.inl ⟨n, _, hchain⟩)
        · obtain ⟨keys, -, hkeys⟩ := Option.bind_eq_some_iff.mp hchain
          exact .inr (.inl ⟨n, keys, hkeys⟩)
      · cases h
    split at h
    · split at h
      · obtain ⟨l, -, rfl⟩ := Option.map_eq_some_iff.mp h
        exact .inr (.inr ⟨l, rfl⟩)
      · cases h
    · cases h
  · cases h

theorem mapIdx_map {α β γ : Type} (f : Nat → β → γ) (g : α → β) (l : List α) :
    (l.map g).mapIdx f = l.mapIdx fun j x => f j (g x) := by
  simp [List.mapIdx_eq_zipIdx_map, List.zipIdx_map]

theorem keyCommandsFrom_eq_mapIdx (k : Nat) (keys : List KeyOperand) :
    keyCommandsFrom k keys = keys.mapIdx fun j key => .key (k + j) key := by
  induction keys generalizing k with
  | nil => rfl
  | cons key keys ih => simp [keyCommandsFrom, ih, List.mapIdx_cons, Nat.add_assoc, Nat.add_comm 1]

theorem chainCommands_ofNat {n : Nat} (hn : n ≤ 255) (keys : List KeyOperand) :
    chainCommands (BitVec.ofNat 8 n) keys =
      if keys.length = n then some (.cfg (BitVec.ofNat 8 n) :: keys.mapIdx Instr.key) else none := by
  rw [chainCommands, BitVec.toNat_ofNat, Nat.mod_eq_of_lt (by omega), keyCommandsFrom_eq_mapIdx]
  simp only [Nat.zero_add]

theorem chainCommands_wf {n : Byte} {keys : List KeyOperand} {is : List Instr} (h : chainCommands n keys = some is) :
    ∀ i ∈ is, i.wf = true := by
  unfold chainCommands at h
  split at h
  · next hlen =>
    obtain rfl := Option.some.inj h
    rw [keyCommandsFrom_eq_mapIdx]
    refine List.forall_mem_cons.mpr ⟨rfl, fun i hi => ?_⟩
    obtain ⟨j, hj, rfl⟩ := List.mem_mapIdx.mp hi
    have := n.isLt
    exact decide_eq_true (by omega)
  · cases h

theorem expandTokens_wf {ts : List Token} {is : List Instr} (h : expandTokens ts = some is) :
    ∀ i ∈ is, i.wf = true := by
  intro i hi
  rcases expandTokens_eq_some h with ⟨ds, rfl⟩ | ⟨n, keys, hchain⟩ | ⟨l, rfl⟩
  · obtain ⟨d, -, rfl⟩ := List.mem_map.mp hi
    rfl
  · exact chainCommands_wf hchain i hi
  · obtain rfl := List.eq_of_mem_replicate hi
    rfl

theorem commandsOfLine_wf {line : List Char} {is : List Instr} (h : commandsOfLine line = some is) :
    ∀ i ∈ is, i.wf = true := by
  unfold commandsOfLine at h
  split at h
  · obtain rfl := Option.some.inj h
    exact List.forall_mem_nil _
  · next i hi =>
    obtain rfl := Option.some.inj h
    exact List.forall_mem_singleton.mpr (assembleLine_wf hi)
  · exact expandTokens_wf h

/-! ### A line that is a pseudo-instruction (R73) -/

/-- A line that begins with a word that spells no mnemonic is expanded. -/
theorem commandsOfLine_of_names {line name m : List Char} {ts : List Token}
    (hline : lexFrom [] line = .word name :: ts) (hn : Names name m) (hm : ∀ q, spelling q ≠ m) :
    commandsOfLine line = expandTokens (.word name :: ts) := by
  have hparse : parseMnemonic name = none :=
    List.find?_eq_none.mpr fun q _ => by simpa [hn] using hm q
  have hrefused : assembleLine line = .refused := by
    simp [assembleLine, lexLine, hline, hparse]
  rw [commandsOfLine, hrefused, lexLine, hline]

theorem parseMessage_bytes {bs : List (List Char × Nat)} (hb : ∀ b ∈ bs, Spells b.1 b.2) :
    parseMessage (lexFrom [] (braced (bs.map Prod.fst))) =
      if ∀ b ∈ bs, b.2 ≤ 255 then some (bs.map fun b => BitVec.ofNat 8 b.2) else none := by
  rw [lexFrom_braced fun b hb' => (isWord_of_spells (hb b hb')).lexesTo]
  cases bs with
  | nil => rfl
  | cons b bs =>
    rw [← parseByteList_of_spells (List.cons_ne_nil b bs) hb]
    cases bs <;> rfl

theorem splitItems_keys {ws : List (List Char)} (hne : ws ≠ []) :
    splitItems 0 [] (List.intercalate [.comma] (ws.map fun w => [.hash, .word w])) =
      ws.map fun w => [.hash, .word w] := by
  induction ws with
  | nil => exact absurd rfl hne
  | cons w ws ih =>
    cases ws with
    | nil => rfl
    | cons w' ws => exact congrArg _ (ih (List.cons_ne_nil _ _))

theorem parseKeyItems_eq_mapM (items : List (List Token)) : parseKeyItems items = items.mapM parseKeyOperand := by
  induction items with
  | nil => rfl
  | cons item items ih =>
    rw [parseKeyItems, ih, List.mapM_cons]
    cases parseKeyOperand item <;> cases items.mapM parseKeyOperand <;> rfl

theorem parseChain_body (n : Byte) {body : List Token} (hne : body ≠ []) :
    parseChain n (body ++ [.closeBrace]) = (parseKeyItems (splitItems 0 [] body)).bind (chainCommands n) := by
  have hclose : beforeClosingBrace (body ++ [.closeBrace]) = some body := by simp [beforeClosingBrace]
  obtain ⟨t, ts, rfl⟩ := List.exists_cons_of_ne_nil hne
  rw [parseChain, hclose]

/-- The operands of CHAIN, from its opening brace on: every item is read as a key. -/
theorem parseChain_keys (n : Byte) (ws : List (List Char)) :
    parseChain n (List.intercalate [.comma] (ws.map fun w => [.hash, .word w]) ++ [.closeBrace]) =
      ((ws.map fun w => [.hash, .word w]).mapM parseKeyOperand).bind (chainCommands n) := by
  cases ws with
  | nil => rfl
  | cons w ws =>
    have hbody : List.intercalate [.comma] ((w :: ws).map fun w => [Token.hash, .word w]) ≠ [] := by
      cases ws <;> simp [List.intercalate_cons_cons]
    rw [parseChain_body n hbody, splitItems_keys (List.cons_ne_nil w ws), parseKeyItems_eq_mapM]

section
variable {name : List Char}

/-- One of the three names of the stream pseudo-instruction (R73). -/
abbrev NamesProcess (name : List Char) : Prop :=
  Names name ['P', 'R', 'O', 'C', 'E', 'S', 'S'] ∨ Names name ['E', 'N', 'C', 'R', 'Y', 'P', 'T'] ∨
    Names name ['D', 'E', 'C', 'R', 'Y', 'P', 'T']

theorem expandTokens_process (hn : NamesProcess name) (ts : List Token) :
    expandTokens (.word name :: ts) = (parseMessage ts).map processCommands := by
  rcases hn with hn | hn | hn <;> simp only [expandTokens, hn] <;> rfl

theorem expandTokens_chain (hn : Names name ['C', 'H', 'A', 'I', 'N']) (ns : List Char) (ts : List Token) :
    expandTokens (.word name :: .word ns :: .comma :: .openBrace :: ts) =
      (parseByte ns).bind fun n => parseChain n ts := by
  simp only [expandTokens, hn]
  rfl

theorem expandTokens_skip (hn : Names name ['S', 'K', 'I', 'P']) (ns : List Char) :
    expandTokens [.word name, .word ns] = (parseNumber ns).map skipCommands := by
  simp only [expandTokens, hn]
  rfl

theorem commandsOfLine_process {bs : List (List Char × Nat)} (hn : NamesProcess name)
    (hb : ∀ b ∈ bs, Spells b.1 b.2) :
    commandsOfLine (name ++ [' '] ++ braced (bs.map Prod.fst)) =
      if ∀ b ∈ bs, b.2 ≤ 255 then some (bs.map fun b => .xor (BitVec.ofNat 8 b.2)) else none := by
  have hword : IsWord name := by
    rcases hn with hn | hn | hn <;> exact isWord_of_names hn (isWord_of_all (by decide) (by decide))
  have hline : lexFrom [] (name ++ [' '] ++ braced (bs.map Prod.fst)) =
      .word name :: lexFrom [] (braced (bs.map Prod.fst)) := by
    simp only [List.append_assoc, List.cons_append, List.nil_append, hword.lex_space]
  have hexpand : commandsOfLine (name ++ [' '] ++ braced (bs.map Prod.fst)) =
      expandTokens (.word name :: lexFrom [] (braced (bs.map Prod.fst))) := by
    rcases hn with hn | hn | hn <;> exact commandsOfLine_of_names hline hn (fun q => by cases q <;> decide)
  rw [hexpand, expandTokens_process hn, parseMessage_bytes hb, apply_ite (Option.map processCommands),
    Option.map_some, Option.map_none, processCommands, List.map_map]
  rfl

theorem commandsOfLine_chain {ns : List Char} {n : Nat} {keys : List (List Char × Nat)}
    (hn : Names name ['C', 'H', 'A', 'I', 'N']) (hns : Spells ns n) (hkeys : ∀ q ∈ keys, Spells q.1 q.2) :
    commandsOfLine (name ++ [' '] ++ ns ++ [',', ' '] ++ braced (keys.map fun q => '#' :: q.1)) =
      if n ≤ 255 ∧ keys.length = n ∧ ∀ q ∈ keys, q.2 < 2 ^ 64 then
        some (.cfg (BitVec.ofNat 8 n) :: keys.mapIdx fun j q => .key j (BitVec.ofNat 64 q.2))
      else none := by
  have hname := isWord_of_names hn (isWord_of_all (by decide) (by decide))
  have hline := lexFrom_word_word_comma hname (isWord_of_spells hns) (braced (keys.map fun q => '#' :: q.1))
  rw [lexFrom_braced fun q hq => (isWord_of_spells (hkeys q hq)).lexesTo_hash] at hline
  rw [commandsOfLine_of_names hline hn (fun q => by cases q <;> decide), expandTokens_chain hn, parseByte_of_spells hns]
  have hitems : ((keys.map Prod.fst).map fun w => [Token.hash, .word w]).mapM parseKeyOperand =
      if ∀ q ∈ keys, q.2 < 2 ^ 64 then some (keys.map fun q => BitVec.ofNat 64 q.2) else none := by
    rw [List.map_map]
    exact mapM_eq_ite fun q hq => parseKey_of_spells (hkeys q hq)
  by_cases hn255 : n ≤ 255
  · have hchain := parseChain_keys (BitVec.ofNat 8 n) (keys.map Prod.fst)
    rw [hitems, List.map_map] at hchain
    rw [if_pos hn255, Option.bind_some]
    refine hchain.trans ?_
    by_cases hfit : ∀ q ∈ keys, q.2 < 2 ^ 64
    · rw [if_pos hfit, Option.bind_some, chainCommands_ofNat hn255, List.length_map, mapIdx_map]
      simp only [hn255, true_and, and_iff_left hfit]
    · rw [if_neg hfit, if_neg fun h => hfit h.2.2]
      rfl
  · rw [if_neg hn255, if_neg (mt And.left hn255)]
    rfl

theorem commandsOfLine_skip {ns : List Char} {n : Nat} (hn : Names name ['S', 'K', 'I', 'P']) (hns : Spells ns n) :
    commandsOfLine (name ++ [' '] ++ ns) = some (List.replicate n .cadv) := by
  have hname := isWord_of_names hn (isWord_of_all (by decide) (by decide))
  rw [commandsOfLine_of_names (lexFrom_word_word hname (isWord_of_spells hns)) hn (fun q => by cases q <;> decide),
    expandTokens_skip hn, parseNumber_of_spells hns]
  rfl

end

/-! ### The disassembler (R72) -/

theorem digitChar_spec (d : Nat) (h : d < 16) : digitChar d ∈ digitChars ∧ digitOf (digitChar d) = d := by
  interval_cases d <;> decide

theorem digitChar_decimal (d : Nat) (h : d < 10) : digitChar d ∈ digitChars.take 10 := by
  interval_cases d <;> decide

/-- The digits of a number are the number, as far as they go. -/
theorem numeralValue_digits {base : Nat} (h0 : 0 < base) (hbase : base ≤ 16) (width v : Nat) :
    numeralValue base (digits base width v) = v % base ^ width := by
  induction width generalizing v with
  | zero => simp [digits, numeralValue, Nat.mod_one]
  | succ width ih =>
    have hlast := (digitChar_spec (v % base) ((Nat.mod_lt v h0).trans_le hbase)).2
    calc numeralValue base (digits base (width + 1) v)
        = base * numeralValue base (digits base width (v / base)) + digitOf (digitChar (v % base)) := by
          simp [numeralValue, digits]
      _ = v % base ^ (width + 1) := by
          rw [ih, hlast, Nat.pow_succ', Nat.mod_mul, Nat.add_comm]

theorem mem_digits {base width v : Nat} {c : Char} (h : c ∈ digits base width v) : ∃ u, c = digitChar (u % base) := by
  induction width generalizing v with
  | zero => cases h
  | succ width ih =>
    rcases List.mem_append.mp h with h | h
    · exact ih h
    · exact ⟨v, List.mem_singleton.mp h⟩

theorem digits_ne_nil (base width v : Nat) : digits base (width + 1) v ≠ [] := by
  simp [digits]

theorem spells_digits {width v : Nat} (h : v < 10 ^ (width + 1)) : Spells (digits 10 (width + 1) v) v := by
  refine .inl ⟨digits_ne_nil 10 width v, ?_, ?_⟩
  · refine List.all_eq_true.mpr fun c hc => ?_
    obtain ⟨u, rfl⟩ := mem_digits hc
    simpa using digitChar_decimal (u % 10) (Nat.mod_lt u (by decide))
  · rw [numeralValue_digits (by decide) (by decide), Nat.mod_eq_of_lt h]

theorem spells_printHex {width v : Nat} (h : v < 16 ^ (width + 1)) : Spells (printHex (width + 1) v) v := by
  refine .inr ⟨_, rfl, digits_ne_nil 16 width v, ?_, ?_⟩
  · refine List.all_eq_true.mpr fun c hc => ?_
    obtain ⟨u, rfl⟩ := mem_digits hc
    simpa using (digitChar_spec (u % 16) (Nat.mod_lt u (by decide))).1
  · rw [numeralValue_digits (by decide) (by decide), Nat.mod_eq_of_lt h]

theorem spells_printDecimal {v : Nat} (h : v < 1000) : Spells (printDecimal v) v := by
  unfold printDecimal
  split
  · next h10 => exact spells_digits (width := 0) h10
  · split
    · next h100 => exact spells_digits (width := 1) h100
    · exact spells_digits (width := 2) h

theorem spells_printDecimal_byte (b : Byte) : Spells (printDecimal b.toNat) b.toNat :=
  spells_printDecimal (b.isLt.trans (by decide))

theorem getD_wheelIndex (w : Wheel) : [Wheel.a, .b, .c, .d, .e, .f, .g, .h].getD w.index .a = w := by
  cases w <;> rfl

/-- What the disassembler writes for a well-formed command assembles to it. -/
theorem assembleLine_printInstr {i : Instr} (hwf : i.wf = true) : assembleLine (printInstr i) = .command i := by
  have hbyte (b : Byte) : b.toNat ≤ 255 := Nat.le_of_lt_succ b.isLt
  have hstage {k : Nat} (h : stageFits k = true) : k ≤ 255 ∧ Spells (printDecimal k) k := by
    have hk : k ≤ 255 := of_decide_eq_true h
    exact ⟨hk, spells_printDecimal (by omega)⟩
  cases i with
  | nop => decide
  | cfg n =>
    refine (assembleLine_cfg (names_spelling .cfg) (spells_printDecimal_byte n)).trans ?_
    rw [if_pos (hbyte n), BitVec.ofNat_toNat, BitVec.setWidth_eq]
  | key k keyin =>
    obtain ⟨hk, hspells⟩ := hstage hwf
    refine (assembleLine_key_value (names_spelling .key) hspells (spells_printHex keyin.isLt)).trans ?_
    rw [if_pos ⟨hk, keyin.isLt⟩, BitVec.ofNat_toNat, BitVec.setWidth_eq]
  | val k =>
    obtain ⟨hk, hspells⟩ := hstage hwf
    exact (assembleLine_val (names_spelling .val) hspells).trans (if_pos hk)
  | adv k =>
    obtain ⟨hk, hspells⟩ := hstage hwf
    exact (assembleLine_adv (names_spelling .adv) hspells).trans (if_pos hk)
  | rdpos k w =>
    obtain ⟨hk, hspells⟩ := hstage hwf
    have hw : w.index ≤ 7 := by cases w <;> decide
    refine (assembleLine_rdpos_number (names_spelling .rdpos) hspells (spells_printDecimal (by omega))).trans ?_
    rw [if_pos ⟨hk, hw⟩, getD_wheelIndex]
  | cval => decide
  | cadv => decide
  | xor d =>
    refine (assembleLine_xor (names_spelling .xor) (spells_printDecimal_byte d)).trans ?_
    rw [if_pos (hbyte d), BitVec.ofNat_toNat, BitVec.setWidth_eq]

end Sys2Proof.Machine

namespace Sys2Proof.Proofs

open Sys2Proof.Machine

/-- Settles O1: the command's word matches the row of its mnemonic, and that row's fields hold its operands. -/
theorem decodeOfEncodeIsTheCommand : Obligations.DecodeOfEncodeIsTheCommand :=
  fun _ hwf => ⟨decode_encode hwf, fun hne _ => decode_encodeWord hwf fun k key hi => absurd hi (hne k key)⟩

/-- Settles O2: a word that matches a row is the opcode and the operands of the row's command, and 0 elsewhere. -/
theorem encodeOfDecodeIsTheWord : Obligations.EncodeOfDecodeIsTheWord := by
  intro cw keyin i hd
  obtain ⟨r, hr, hmatch, rfl⟩ := row_of_decode hd
  refine ⟨instrOfRow_wf .., encodeWord_instrOfRow hr hmatch keyin, fun hkey => ?_⟩
  rw [instrOfRow_mnemonic] at hkey
  rw [hkey]
  rfl

/-- Settles O3: each clause is one row of the table. -/
theorem wordIsACommandExactlyWhenItsRowMatches : Obligations.WordIsACommandExactlyWhenItsRowMatches := by
  intro cw keyin
  have row (r : DecodeRow) (hr : r ∈ decodeTable) := decode_mnemonic_iff hr cw keyin
  exact ⟨row ⟨.nop, _, _⟩ (by decide), row ⟨.cfg, _, _⟩ (by decide), row ⟨.key, _, _⟩ (by decide),
    row ⟨.val, _, _⟩ (by decide), row ⟨.adv, _, _⟩ (by decide), row ⟨.rdpos, _, _⟩ (by decide),
    row ⟨.cval, _, _⟩ (by decide), row ⟨.cadv, _, _⟩ (by decide), row ⟨.xor, _, _⟩ (by decide)⟩

/-- Settles O4: such a word matches no row, and the error report writes the response alone. -/
theorem reservedWordsAnswerIllegal : Obligations.ReservedWordsAnswerIllegal :=
  fun _ _ _ _ hp hreserved => step_of_illegal hp (decode_of_no_row (rowMatches_of_reserved hreserved))

/-- Settles O6: twelve closed words. -/
theorem specWordsDecodeToTheirCommands : Obligations.SpecWordsDecodeToTheirCommands := by
  unfold Obligations.SpecWordsDecodeToTheirCommands
  decide

/-- Settles O48: CFG writes N, and the keys fill the stages from 0 on, one after the other. -/
theorem chainSetupKeysTheWholeChain : Obligations.ChainSetupKeysTheWholeChain := by
  intro s n keys is h1 hn his
  unfold chainCommands at his
  split at his
  · next hlen =>
    obtain rfl := Option.some.inj his
    have hfits := n.isLt
    obtain ⟨u, hrun, hun, hstages⟩ := transcript_keyCommandsFrom keys (k := 0)
      (s := ((s.presentCommand s.pending).setN n).respond .ok 0x00#8 false)
      (by rw [Nat.zero_add, hlen]; exact hn) (by omega)
    have hstages : u.stages = (keys.map fun key => some (Claims.keyed key)) ++ s.stages.drop n.toNat := by
      rw [hstages, hlen, Nat.zero_add]
      rfl
    have hn' : n.toNat ≤ (s.presentCommand s.pending).nmax := hn
    refine ⟨_, u, transcript_queue_cons rfl (exec_cfg_queue h1 hn' _) hrun, ?_, hun, hstages, ?_⟩
    · rw [hlen, List.replicate_succ]
    · have hu : u.n.toNat = keys.length := hlen ▸ congrArg BitVec.toNat hun
      refine ⟨by omega, by simp [hu], by rw [hstages, hu]; simp, fun p hp => ?_⟩
      obtain ⟨key, -, rfl⟩ := List.mem_map.mp hp
      exact keySchedule_inRange key
  · cases his

/-- Settles O49: the disassembler writes every operand as a numeral that the assembler reads back. -/
theorem assemblerReadsTheDisassembly : Obligations.AssemblerReadsTheDisassembly := by
  refine ⟨fun i hwf => assembleLine_printInstr hwf, fun cw keyin i hd => ?_, fun cw keyin e hd => ?_⟩
  · rw [disassemble, hd]
    exact assembleLine_printInstr (wf_of_decode hd)
  · rw [disassemble, hd]
    rfl

/-- Settles O50: an accepted stage index has passed its check, and each form of a line is lexed and read operand by
operand. -/
theorem assemblerAcceptsOnlyWellFormedCommands : Obligations.AssemblerAcceptsOnlyWellFormedCommands := by
  refine ⟨fun line i => assembleLine_wf, fun line is => commandsOfLine_wf, fun name ks ds k d bs hk hd hb => ?_⟩
  exact ⟨fun hn => assembleLine_cfg hn hd, fun hn => assembleLine_val hn hk, fun hn => assembleLine_adv hn hk,
    fun hn => assembleLine_xor hn hd,
    fun hn => ⟨assembleLine_rdpos_number hn hk hd, assembleLine_rdpos_letter hn hk⟩,
    fun hn => ⟨assembleLine_key_value hn hk hd, assembleLine_key_bytes hn hk hb⟩⟩

/-- Settles O52: a command's line is that command, and each pseudo-instruction's line is lexed and expanded. -/
theorem pseudoInstructionsExpandToTheirCommands : Obligations.PseudoInstructionsExpandToTheirCommands := by
  refine ⟨fun line i h => ?_, fun name ns n bs keys hns hbs hkeys => ?_⟩
  · rw [commandsOfLine, h]
  · exact ⟨fun hn => commandsOfLine_process hn hbs, fun hn => commandsOfLine_chain hn hns hkeys,
      fun hn => commandsOfLine_skip hn hns⟩

end Sys2Proof.Proofs
end

section
/-! PROOFS. The stage commands (spec/40_stage.md): the encoding and the meaning of KEY, VAL, ADV and RDPOS, what they
and CFG leave alone, and the period of one stage. -/

namespace Sys2Proof

/-! ### The encoding clause of a command rule (R68) -/

/-- Every row's encoding clause: a word with the row's opcode matches no other row, because no two rows share one. -/
theorem rowDecodes_of_row {r : DecodeRow} (hr : r ∈ decodeTable) :
    Claims.RowDecodes r.mnemonic.op r.mask r.pattern (instrOfRow r.mnemonic) := by
  have hinj : ∀ r ∈ decodeTable, ∀ q ∈ decodeTable, q.mnemonic.op = r.mnemonic.op → q = r := by decide
  intro cw keyin
  refine ⟨fun hmatch => decode_of_row hr (beq_iff_eq.mpr hmatch), fun hop hne => ?_⟩
  refine ⟨_, decode_of_no_row fun q hq => Bool.eq_false_iff.mpr fun hmatch => hne ?_⟩
  obtain rfl := hinj r hr q hq ((fieldOp_of_rowMatches hq hmatch).symm.trans hop)
  exact beq_iff_eq.mp hmatch

/-- The wheel of a W field, read from the list of the wheels (R64). -/
theorem Wheel.ofField_eq_getD (f : BitVec 3) :
    Wheel.ofField f = [Wheel.a, .b, .c, .d, .e, .f, .g, .h].getD f.toNat .a := by
  have hf : f.toNat ≤ 7 := Nat.le_of_lt_succ f.isLt
  rw [Wheel.ofField, Machine.ofIndex?_eq_getD, if_pos hf, Option.getD_some]

/-- The command of a word in the row of RDPOS, its wheel read from the list of the wheels. -/
theorem instrOfRow_rdpos : instrOfRow .rdpos = fun cw _ => .rdpos (cw.extractLsb' 8 8).toNat
    ([Wheel.a, .b, .c, .d, .e, .f, .g, .h].getD (cw.extractLsb' 16 3).toNat .a) := by
  funext cw keyin
  exact congrArg (Instr.rdpos _) (Wheel.ofField_eq_getD _)

/-! ### The moduli (R5, R9) -/

/-- The moduli of the statements, whatever stands for a wheel that does not exist. -/
theorem moduli_getD_index (w : Wheel) (d : Nat) : Claims.moduli.getD w.index d = w.modulus := by
  cases w <;> rfl

/-- P divides a number exactly when every modulus does: the moduli are pairwise coprime and their product is P. -/
theorem period_dvd_iff {t : Nat} : Claims.period ∣ t ↔ ∀ w : Wheel, w.modulus ∣ t := by
  obtain ⟨hmoduli, -, -, hprod, -, -, -, hcoprime, -⟩ := Proofs.wheelConstantsAreThoseOfTheSpec
  rw [← hmoduli, List.pairwise_map] at hcoprime
  rw [← hprod, ← hmoduli, ← Nat.modEq_zero_iff_dvd, Nat.modEq_list_map_prod_iff hcoprime]
  simp only [Nat.modEq_zero_iff_dvd]
  exact ⟨fun h w => h w w.mem_all, fun h w _ => h w⟩

/-- A remainder is where it was after `t` more steps exactly when the modulus divides `t`. -/
theorem add_mod_eq_self_iff {i t m : Nat} (hi : i < m) : (i + t) % m = i ↔ m ∣ t := by
  rw [← Nat.add_modEq_left_iff (a := i), Nat.ModEq, Nat.mod_eq_of_lt hi]

end Sys2Proof

namespace Sys2Proof.Machine

/-! ### The model's positions and bytes are those of the statements (R66, R80 to R82) -/

theorem keySchedule_eq_keyed (keyin : KeyOperand) : keySchedule keyin = Claims.keyed keyin := rfl

theorem advanced_eq_stepped (p : Positions) : p.advanced = Claims.stepped p := by
  have ha : p.a + 1#8 = BitVec.ofNat 8 ((p.a.toNat + 1) % 256) := by
    apply BitVec.eq_of_toNat_eq
    simp [BitVec.toNat_add]
  refine Positions.eq_of_get fun w => ?_
  cases w with
  | a => exact ha
  | _ => rfl

theorem stageValue_eq_stageByte (m : Memory) (k : Nat) (p : Positions) :
    stageValue m k p = Claims.stageByte m k p := by
  simp [stageValue, Claims.stageByte, Wheel.all, Positions.get]

/-! ### What VAL, ADV and RDPOS answer (R92 to R94) -/

theorem State.pos_eq_none_of_unkeyed {s : State} {k : Nat} (h : s.stages[k]? = some none) : s.pos k = none := by
  simp [State.pos, h]

theorem onKeyedStage_of_stage_none {k : Nat} {s : State} (h : s.stages[k]? = some none) (body : Positions → Result) :
    onKeyedStage k s body = raiseError .notKeyed s :=
  onKeyedStage_of_unkeyed (List.getElem?_eq_some_iff.mp h).1 (State.pos_eq_none_of_unkeyed h)

/-- On a keyed stage whose positions are in range, both checks pass. -/
theorem onKeyedStage_of_inRange {k : Nat} {s : State} {p : Positions} (hp : s.stages[k]? = some (some p))
    (hr : p.inRange = true) (reason : Fault) (body : Positions → Result) :
    onKeyedStage k s (fun q => onIndexDomain [q] reason (body q)) = body p := by
  rw [onKeyedStage_of_pos (State.pos_eq_some.mpr hp)]
  exact onIndexDomain_of_inRange (List.forall_mem_singleton.mpr hr)

theorem exec_val_of_inRange {k : Nat} {s : State} {p : Positions} (hp : s.stages[k]? = some (some p))
    (hr : p.inRange = true) : exec (.val k) s = completes s (stageValue s.memory k p) false :=
  onKeyedStage_of_inRange hp hr _ _

theorem exec_adv_of_inRange {k : Nat} {s : State} {p : Positions} (hp : s.stages[k]? = some (some p))
    (hr : p.inRange = true) :
    exec (.adv k) s = completes (s.setPos k p.advanced) 0x00#8 (wrapped p.advanced) :=
  onKeyedStage_of_inRange hp hr _ _

theorem exec_rdpos_of_stage {k : Nat} {s : State} {p : Positions} (hp : s.stages[k]? = some (some p)) (w : Wheel) :
    exec (.rdpos k w) s = completes s (p.get w) false :=
  onKeyedStage_of_pos (State.pos_eq_some.mpr hp)

/-! ### What KEY, ADV and CFG leave alone (R91, R93, R110) -/

/-- KEY k and ADV k write stage k and the response, or the response alone. -/
theorem exec_next_of_stage_write {i : Instr} {s t : State} {k : Nat} (hi : (∃ keyin, i = .key k keyin) ∨ i = .adv k)
    (h : exec i s = .next t) :
    ∃ st data flag, (∃ p, t = (s.setPos k p).respond st data flag) ∨ t = s.respond st data flag := by
  rcases exec_next h with ⟨data, flag, u, hw, rfl⟩ | ⟨code, -, rfl⟩
  · rcases hi with ⟨keyin, rfl⟩ | rfl
    · obtain ⟨-, rfl⟩ := hw
      exact ⟨_, _, _, .inl ⟨_, rfl⟩⟩
    · obtain ⟨p, -, -, rfl⟩ := hw
      exact ⟨_, _, _, .inl ⟨_, rfl⟩⟩
  · exact ⟨_, _, _, .inr rfl⟩

/-- CFG writes N and the response, or the response alone. -/
theorem exec_cfg_next {n : Byte} {s t : State} (h : exec (.cfg n) s = .next t) :
    ∃ st data flag, t = (s.setN n).respond st data flag ∨ t = s.respond st data flag := by
  rcases exec_next h with ⟨data, flag, u, hw, rfl⟩ | ⟨code, -, rfl⟩
  · obtain ⟨-, -, rfl⟩ := hw
    exact ⟨_, _, _, .inl rfl⟩
  · exact ⟨_, _, _, .inr rfl⟩

/-! ### t advances of one stage (R84) -/

theorem advancedStage_get_toNat {p : Positions} (hp : p.inRange = true) (t : Nat) (w : Wheel) :
    ((advancedStage t p).get w).toNat = ((p.get w).toNat + t) % w.modulus := by
  induction t generalizing p with
  | zero => exact (Nat.mod_eq_of_lt (Positions.inRange_iff.mp hp w)).symm
  | succ t ih =>
    rw [advancedStage, ih p.advanced_inRange, Positions.advanced_get, succ_toNat, Nat.mod_add_mod, Nat.add_assoc,
      Nat.add_comm 1]

/-- A stage returns to its positions when every wheel does. -/
theorem advancedStage_eq_self_iff {p : Positions} (hp : p.inRange = true) (t : Nat) :
    advancedStage t p = p ↔ Claims.period ∣ t := by
  have hwheel (w : Wheel) : (advancedStage t p).get w = p.get w ↔ w.modulus ∣ t := by
    rw [← BitVec.toNat_inj, advancedStage_get_toNat hp, add_mod_eq_self_iff (Positions.inRange_iff.mp hp w)]
  rw [period_dvd_iff]
  exact ⟨fun h w => (hwheel w).mp (congrArg (Positions.get · w) h),
    fun h => Positions.eq_of_get fun w => (hwheel w).mpr (h w)⟩

/-- The response to advance number `j + 1` of a stage whose wheel a stood at `a` (R84, R93). -/
def advResponse (a j : Nat) : Response := ⟨.ok, 0x00#8, decide (256 ∣ a + (j + 1))⟩

/-- The first advance's response is its wrap bit. -/
theorem advResponse_zero (p : Positions) : advResponse p.a.toNat 0 = ⟨.ok, 0x00#8, wrapped p.advanced⟩ := by
  have hlt := p.a.isLt
  have hwrap : decide (256 ∣ p.a.toNat + 1) = (p.a == 0xFF#8) := by
    rw [Bool.eq_iff_iff, decide_eq_true_eq, beq_iff_eq, ← BitVec.toNat_inj]
    simp only [BitVec.toNat_ofNat]
    omega
  rw [advResponse, wrapped_advanced, hwrap]

/-- The later ones are those of the stage after its first advance. -/
theorem advResponse_advanced (p : Positions) :
    advResponse p.advanced.a.toNat = advResponse p.a.toNat ∘ Nat.succ := by
  funext j
  have ha : p.advanced.a.toNat = (p.a.toNat + 1) % 256 := succ_toNat .a p.a
  have hdvd : 256 ∣ p.advanced.a.toNat + (j + 1) ↔ 256 ∣ p.a.toNat + (j.succ + 1) := by omega
  simp only [Function.comp_apply, advResponse, hdvd]

theorem exec_adv_queue {k : Nat} {s : State} {p : Positions} (hp : s.stages[k]? = some (some p))
    (hr : p.inRange = true) (is : List Instr) :
    exec (.adv k) (s.queue is) = completes ((s.setPos k p.advanced).queue is) 0x00#8 (wrapped p.advanced) :=
  exec_adv_of_inRange hp hr

/-- A run from a queue whose first command is well-formed and completes. -/
theorem transcript_queue_completes {s v u : State} {i : Instr} {is : List Instr} {data : Byte} {flag : Bool}
    {rs : List Response} (hwf : i.wf = true)
    (hexec : exec i ((s.presentCommand s.pending).queue is) = completes (v.queue is) data flag)
    (htail : transcript is.length ((v.respond .ok data flag).queue is) = some (rs, u)) :
    transcript (i :: is).length (s.queue (i :: is)) = some (⟨.ok, data, flag⟩ :: rs, u) := by
  have hstep := (step_queue_cons (s := s) (is := is) (decode_encode hwf)).trans hexec
  rw [List.length_cons, transcript_succ hstep rfl]
  exact congrArg (Option.map _) htail

/-- A run of t ADVs of one stage writes the stage's positions after t advances, and no other stage. -/
theorem transcript_adv (t : Nat) {s : State} {k : Nat} {p : Positions} (hk : k ≤ 255)
    (hp : s.stages[k]? = some (some p)) (hr : p.inRange = true) :
    ∃ u, transcript t (s.queue (List.replicate t (.adv k))) =
        some ((List.range t).map (advResponse p.a.toNat), u) ∧
      u.stages = s.stages.set k (some (advancedStage t p)) := by
  induction t generalizing s p with
  | zero =>
    obtain ⟨hlt, hget⟩ := List.getElem?_eq_some_iff.mp hp
    exact ⟨s, rfl, by rw [advancedStage, ← hget, List.set_getElem_self]⟩
  | succ t ih =>
    have hlt : k < s.nmax := State.lt_nmax_of_pos (State.pos_eq_some.mpr hp)
    have hwf : (Instr.adv k).wf = true := decide_eq_true hk
    obtain ⟨u, hrun, hstages⟩ := ih
      (s := ((s.presentCommand s.pending).setPos k p.advanced).respond .ok 0x00#8 (wrapped p.advanced))
      (List.getElem?_set_self hlt) p.advanced_inRange
    have hp' : (s.presentCommand s.pending).stages[k]? = some (some p) := hp
    have hqueue := transcript_queue_completes hwf (exec_adv_queue hp' hr (List.replicate t (.adv k)))
      (by rw [List.length_replicate]; exact hrun)
    rw [← List.replicate_succ, List.length_replicate, ← advResponse_zero, advResponse_advanced] at hqueue
    rw [List.range_succ_eq_map, List.map_cons, List.map_map]
    exact ⟨u, hqueue, by simpa [advancedStage] using hstages⟩

end Sys2Proof.Machine

namespace Sys2Proof.Proofs

open Sys2Proof.Machine

/-- Settles O24: the row of KEY, and the stage check alone decides between the write and the refusal. -/
theorem keyWritesThePositionsOfItsStage : Obligations.KeyWritesThePositionsOfItsStage :=
  ⟨rowDecodes_of_row (r := ⟨.key, _, _⟩) (by decide),
    fun _ _ keyin => ⟨fun hk => keySchedule_eq_keyed keyin ▸ onStage_of_lt hk, fun hk => onStage_of_le hk⟩⟩

/-- Settles O25: the row of VAL, and one case per outcome of its checks. -/
theorem valAnswersTheStageByte : Obligations.ValAnswersTheStageByte := by
  refine ⟨rowDecodes_of_row (r := ⟨.val, _, _⟩) (by decide), fun s k => ⟨fun p hp hr => ?_, ?_, ?_⟩⟩
  · rw [exec_val_of_inRange hp hr, stageValue_eq_stageByte]
    rfl
  · exact fun hk => onKeyedStage_of_le hk
  · exact fun hn => onKeyedStage_of_stage_none hn _

/-- Settles O26: the row of ADV, and one case per outcome of its checks. -/
theorem advStepsEveryWheelOfItsStage : Obligations.AdvStepsEveryWheelOfItsStage := by
  refine ⟨rowDecodes_of_row (r := ⟨.adv, _, _⟩) (by decide), fun s k => ⟨fun p hp hr => ?_, ?_, ?_⟩⟩
  · rw [exec_adv_of_inRange hp hr, wrapped_advanced, advanced_eq_stepped]
    rfl
  · exact fun hk => onKeyedStage_of_le hk
  · exact fun hn => onKeyedStage_of_stage_none hn _

/-- Settles O27: the row of RDPOS with the eight wheels its W field names, and one case per outcome of its checks. -/
theorem rdposAnswersThePosition : Obligations.RdposAnswersThePosition := by
  refine ⟨?_, fun s k => ⟨fun p hp => ?_, ?_, ?_⟩⟩
  · rw [← instrOfRow_rdpos]
    exact rowDecodes_of_row (r := ⟨.rdpos, _, _⟩) (by decide)
  · have answer := exec_rdpos_of_stage hp
    exact ⟨answer .a, answer .b, answer .c, answer .d, answer .e, answer .f, answer .g, answer .h⟩
  · exact fun w hk => onKeyedStage_of_le hk
  · exact fun w hn => onKeyedStage_of_stage_none hn _

/-- Settles O33: KEY and ADV write one entry of the list of stages, CFG writes N. -/
theorem stageAndConfigCommandsLeaveTheRestAlone : Obligations.StageAndConfigCommandsLeaveTheRestAlone := by
  intro i s t k h
  refine ⟨fun hi => ?_, ?_⟩
  · obtain ⟨st, data, flag, ⟨p, rfl⟩ | rfl⟩ := exec_next_of_stage_write hi h
    · exact ⟨fun j hj => List.getElem?_set_ne hj.symm, s.setPos_nmax k p, rfl, rfl, rfl, fun addr => rfl⟩
    · exact ⟨fun j _ => rfl, rfl, rfl, rfl, rfl, fun addr => rfl⟩
  · rintro ⟨n, rfl⟩
    obtain ⟨st, data, flag, rfl | rfl⟩ := exec_cfg_next h <;> exact ⟨rfl, rfl, rfl, fun addr => rfl⟩

/-- Settles O41: wheel by wheel t steps are t added modulo M[w], and P divides t exactly when every M[w] does. -/
theorem repeatedAdvanceHasPeriodP : Obligations.RepeatedAdvanceHasPeriodP := by
  intro s k t p hk hp hr
  obtain ⟨u, hrun, hstages⟩ := transcript_adv t hk hp hr
  refine ⟨_, u, advancedStage t p, hrun, hstages, fun w => ?_, advancedStage_eq_self_iff hr t, rfl⟩
  rw [moduli_getD_index, advancedStage_get_toNat hr]

/-- Settles O12: both operations write positions in range. -/
theorem writtenPositionsAreBelowTheirModuli : Obligations.WrittenPositionsAreBelowTheirModuli := by
  intro keyin p w
  rw [moduli_getD_index]
  exact ⟨Positions.inRange_iff.mp (keySchedule_inRange keyin) w, Positions.inRange_iff.mp p.advanced_inRange w⟩

end Sys2Proof.Proofs
end

section
/-! PROOFS. The cascade commands (spec/41_cascade.md): the encoding and the meaning of CFG, CVAL and CADV, what the
advances of the chain leave alone, the advance counts of its stages, and its period. -/

namespace Sys2Proof.Machine

/-! ### The chain's byte and its advance are those of the statements (R100, R101) -/

theorem foldl_xor_stageByte (m : Memory) (ps : List Positions) (k : Nat) (v : Byte) :
    (ps.mapIdx fun i p => Claims.stageByte m (k + i) p).foldl (· ^^^ ·) v = v ^^^ chainValueFrom m k ps := by
  induction ps generalizing k v with
  | nil => simp [chainValueFrom]
  | cons p ps ih =>
    have hshift : (fun i q => Claims.stageByte m (k + (i + 1)) q) = fun i q => Claims.stageByte m (k + 1 + i) q := by
      funext i q
      rw [Nat.add_assoc, Nat.add_comm 1]
    rw [List.mapIdx_cons, List.foldl_cons, hshift, ih, Nat.add_zero, chainValueFrom, stageValue_eq_stageByte,
      BitVec.xor_assoc]

theorem cascadeValue_eq_chainByte (m : Memory) (ps : List Positions) :
    cascadeValue m ps = Claims.chainByte m ps := by
  simpa [cascadeValue, Claims.chainByte] using (foldl_xor_stageByte m ps 0 0x00#8).symm

/-- The first stage moves, and the others as a chain of their own exactly when it wraps (R101). -/
theorem rippled_cons (p : Positions) (ps : List Positions) :
    Claims.rippled (p :: ps) = Claims.stepped p :: if p.a == 0xFF#8 then Claims.rippled ps else ps := by
  rw [Claims.rippled, List.mapIdx_cons, List.take_zero, List.all_nil, if_pos rfl]
  cases hwrap : p.a == 0xFF#8 with
  | false =>
    simp only [List.take_succ_cons, List.all_cons, hwrap, Bool.false_and]
    exact congrArg _ (List.ext_getElem (by simp) (by simp))
  | true =>
    simp only [List.take_succ_cons, List.all_cons, hwrap, Bool.true_and]
    rfl

theorem cascadeAdvance_eq_rippled (ps : List Positions) :
    cascadeAdvance ps = (Claims.rippled ps, ps.all fun q => q.a == 0xFF#8) := by
  induction ps with
  | nil => rfl
  | cons p ps ih =>
    rw [cascadeAdvance, advanceFrom_true_cons, wrapped_advanced, advanced_eq_stepped, rippled_cons, List.all_cons]
    cases p.a == 0xFF#8 with
    | false => simp [advanceFrom_false]
    | true => exact congrArg (fun r : List Positions × Bool => (Claims.stepped p :: r.1, r.2)) ih

@[simp] theorem rippled_length (ps : List Positions) : (Claims.rippled ps).length = ps.length := by
  simp [Claims.rippled]

theorem rippled_inRange {ps : List Positions} (h : ∀ p ∈ ps, Positions.inRange p = true) :
    ∀ p ∈ Claims.rippled ps, Positions.inRange p = true := by
  have hadvance := cascadeAdvance_inRange h
  rwa [cascadeAdvance_eq_rippled] at hadvance

/-! ### What CFG, CVAL, CADV and XOR answer (R110 to R112, R120) -/

theorem exec_cfg_of_legal {n : Byte} {s : State} (h1 : 1 ≤ n.toNat) (hn : n.toNat ≤ s.nmax) :
    exec (.cfg n) s = completes (s.setN n) 0x00#8 false :=
  exec_cfg_queue h1 hn []

theorem exec_cfg_of_illegal {n : Byte} {s : State} (h : n.toNat = 0 ∨ s.nmax < n.toNat) :
    exec (.cfg n) s = raiseError .invalidConfig s :=
  if_pos (h.imp_left fun h0 => BitVec.eq_of_toNat_eq h0)

/-- The checks of a chain command pass on a keyed chain of legal length whose positions are in range. -/
theorem onKeyedChain_of_chainAt {s : State} {ps : List Positions} (h : Claims.ChainAt s ps) (reason : Fault)
    (body : List Positions → Result) : onKeyedChain s (fun qs => onIndexDomain qs reason (body qs)) = body ps := by
  obtain ⟨hn, hlen, htake, hr⟩ := h
  rw [onKeyedChain_of_chain (State.chainLegal_of_take hn hlen htake) (State.chain_eq_some.mpr htake)]
  exact onIndexDomain_of_inRange hr

theorem exec_cval_of_chainAt {s : State} {ps : List Positions} (h : Claims.ChainAt s ps) :
    exec .cval s = completes s (Claims.chainByte s.memory ps) false := by
  rw [← cascadeValue_eq_chainByte]
  exact onKeyedChain_of_chainAt h _ _

theorem exec_cadv_of_chainAt {s : State} {ps : List Positions} (h : Claims.ChainAt s ps) :
    exec .cadv s = completes (s.setChain (Claims.rippled ps)) 0x00#8 (ps.all fun q => q.a == 0xFF#8) := by
  have hexec : exec .cadv s = completes (s.setChain (cascadeAdvance ps).1) 0x00#8 (cascadeAdvance ps).2 :=
    onKeyedChain_of_chainAt h _ _
  rw [hexec, cascadeAdvance_eq_rippled]

theorem exec_xor_of_chainAt {s : State} {ps : List Positions} (h : Claims.ChainAt s ps) (d : Byte) :
    exec (.xor d) s = completes (s.setChain (Claims.rippled ps)) (d ^^^ Claims.chainByte s.memory ps)
      (ps.all fun q => q.a == 0xFF#8) := by
  have hexec : exec (.xor d) s = completes (s.setChain (cascadeAdvance ps).1) (d ^^^ cascadeValue s.memory ps)
      (cascadeAdvance ps).2 := onKeyedChain_of_chainAt h _ _
  rw [hexec, cascadeAdvance_eq_rippled, cascadeValue_eq_chainByte]

theorem onKeyedChain_of_unkeyed {s : State} (hl : s.chainLegal = true) (hc : s.chain = none)
    (body : List Positions → Result) : onKeyedChain s body = raiseError .notKeyed s := by
  rw [onKeyedChain, if_pos hl, hc]

/-- An active stage that is not keyed: a chain command is refused (R144). -/
theorem onKeyedChain_of_stage_none {s : State} {k : Nat} (hn : 1 ≤ s.n.toNat) (hmax : s.n.toNat ≤ s.nmax)
    (hk : k < s.n.toNat) (hnone : s.stages[k]? = some none) (body : List Positions → Result) :
    onKeyedChain s body = raiseError .notKeyed s := by
  have hlegal : s.chainLegal = true := State.chainLegal_iff.mpr ⟨hn, hmax⟩
  have hactive : none ∈ s.stages.take s.n.toNat := List.mem_of_getElem? ((List.getElem?_take_of_lt hk).trans hnone)
  exact onKeyedChain_of_unkeyed hlegal (keyedPositions_eq_none.mpr hactive) body

/-- As many stages as the chain has are written over the active ones, and the stages from N on are left. -/
theorem setChain_stages_of_chainAt {s : State} {ps qs : List Positions} (h : Claims.ChainAt s ps)
    (hqs : qs.length = ps.length) : (s.setChain qs).stages = qs.map some ++ s.stages.drop s.n.toNat := by
  obtain ⟨-, hlen, -, -⟩ := h
  rw [State.setChain_stages, hqs, hlen]

/-! ### A chain of one stage (R111, R112) -/

/-- With N = 1 the chain's checks are those of stage 0. -/
theorem onKeyedChain_of_one {s : State} (hn : s.n = 0x01#8) (hmax : 1 ≤ s.nmax) (body : List Positions → Result) :
    onKeyedChain s body = onKeyedStage 0 s fun p => body [p] := by
  have hlegal : s.chainLegal = true := by simp [State.chainLegal_iff, hn, hmax]
  have hhead : s.stages[0]? = some s.stages[0] := List.getElem?_eq_getElem hmax
  cases hst : s.stages[0] with
  | none =>
    rw [hst] at hhead
    rw [onKeyedStage_of_stage_none hhead]
    exact onKeyedChain_of_stage_none (by simp [hn]) (by simpa [hn]) (by simp [hn]) hhead _
  | some p =>
    rw [hst] at hhead
    have hchain : s.chain = some [p] := by
      rw [State.chain_eq_some, hn]
      exact List.take_one.trans (by simp [List.head?_eq_getElem?, hhead])
    rw [onKeyedStage_of_pos (State.pos_eq_some.mpr hhead), onKeyedChain_of_chain hlegal hchain]

theorem State.setChain_singleton {s : State} (hmax : 1 ≤ s.nmax) (p : Positions) :
    s.setChain [p] = s.setPos 0 p := by
  unfold State.setChain State.setPos
  rw [← List.cons_head_tail (List.ne_nil_of_length_pos hmax)]
  rfl

theorem exec_cval_of_one {s : State} (hn : s.n = 0x01#8) (hmax : 1 ≤ s.nmax) : exec .cval s = exec (.val 0) s := by
  refine (onKeyedChain_of_one hn hmax _).trans (congrArg (onKeyedStage 0 s) (funext fun p => ?_))
  simp only [cascadeValue, chainValueFrom, BitVec.xor_zero]

theorem exec_cadv_of_one {s : State} (hn : s.n = 0x01#8) (hmax : 1 ≤ s.nmax) : exec .cadv s = exec (.adv 0) s := by
  refine (onKeyedChain_of_one hn hmax _).trans (congrArg (onKeyedStage 0 s) (funext fun p => ?_))
  have hadvance : cascadeAdvance [p] = ([p.advanced], wrapped p.advanced) := by
    simp [cascadeAdvance, advanceFrom]
  rw [hadvance, State.setChain_singleton hmax]

/-! ### What a command leaves alone (R24, R29, R44) -/

/-- No command moves the host's side: its sequence and its pc are advanced before the command runs. -/
theorem Writes.host {i : Instr} {s u : State} (h : Writes i s u) : u.pending = s.pending ∧ u.pc = s.pc := by
  cases i with
  | nop => obtain rfl := h; exact ⟨rfl, rfl⟩
  | cfg n => obtain ⟨-, -, rfl⟩ := h; exact ⟨rfl, rfl⟩
  | key k keyin => obtain ⟨-, rfl⟩ := h; exact ⟨rfl, rfl⟩
  | val k => obtain ⟨-, rfl⟩ := h; exact ⟨rfl, rfl⟩
  | adv k => obtain ⟨p, -, -, rfl⟩ := h; exact ⟨rfl, rfl⟩
  | rdpos k w => obtain ⟨-, rfl⟩ := h; exact ⟨rfl, rfl⟩
  | cval => obtain ⟨-, rfl⟩ := h; exact ⟨rfl, rfl⟩
  | cadv => obtain ⟨ps, -, -, -, rfl⟩ := h; exact ⟨rfl, rfl⟩
  | xor d => obtain ⟨ps, -, -, -, rfl⟩ := h; exact ⟨rfl, rfl⟩

theorem State.setChain_nmax {s : State} {ps : List Positions} (hl : ps.length ≤ s.nmax) :
    (s.setChain ps).nmax = s.nmax := by
  simpa [State.nmax] using Nat.add_sub_of_le hl

/-- A chain in the state and the chain after its advance have N stages of the block. -/
theorem cascadeAdvance_length_of_chain {s : State} {ps : List Positions} (hl : s.chainLegal = true)
    (hc : s.chain = some ps) :
    (cascadeAdvance ps).1.length = s.n.toNat ∧ (cascadeAdvance ps).1.length ≤ s.nmax := by
  rw [cascadeAdvance_length, State.chain_length hl hc]
  exact ⟨rfl, (State.chainLegal_iff.mp hl).2⟩

theorem Writes.nmax {i : Instr} {s u : State} (h : Writes i s u) : u.nmax = s.nmax := by
  cases i with
  | nop => obtain rfl := h; rfl
  | cfg n => obtain ⟨-, -, rfl⟩ := h; exact s.setN_nmax n
  | key k keyin => obtain ⟨-, rfl⟩ := h; exact s.setPos_nmax k _
  | val k => obtain ⟨-, rfl⟩ := h; rfl
  | adv k => obtain ⟨p, -, -, rfl⟩ := h; exact s.setPos_nmax k _
  | rdpos k w => obtain ⟨-, rfl⟩ := h; rfl
  | cval => obtain ⟨-, rfl⟩ := h; rfl
  | cadv =>
    obtain ⟨ps, hl, hc, -, rfl⟩ := h
    exact State.setChain_nmax (cascadeAdvance_length_of_chain hl hc).2
  | xor d =>
    obtain ⟨ps, hl, hc, -, rfl⟩ := h
    exact State.setChain_nmax (cascadeAdvance_length_of_chain hl hc).2

theorem exec_host {i : Instr} {s t : State} (h : exec i s = .next t) : t.pending = s.pending ∧ t.pc = s.pc := by
  rcases exec_next h with ⟨data, flag, u, hw, rfl⟩ | ⟨code, -, rfl⟩
  · exact hw.host
  · exact ⟨rfl, rfl⟩

theorem exec_nmax {i : Instr} {s t : State} (h : exec i s = .next t) : t.nmax = s.nmax := by
  rcases exec_next h with ⟨data, flag, u, hw, rfl⟩ | ⟨code, -, rfl⟩
  · exact hw.nmax
  · exact s.respond_nmax _ _ _

/-- A command other than KEY changes no KEYED bit (R22). -/
theorem exec_keyed_of_not_key {i : Instr} {s t : State} (h : exec i s = .next t) (hi : ∀ k keyin, i ≠ .key k keyin)
    (k : Nat) : t.keyed k = s.keyed k := by
  obtain ⟨hkeyed, -, -⟩ := Proofs.keyedIsSetByKeyAndClearedOnlyByReset
  rw [Bool.eq_iff_iff, hkeyed i s t k h, or_iff_left]
  rintro ⟨-, keyin, rfl⟩
  exact hi k keyin rfl

/-- The stages after the written ones are those of the state (R101). -/
theorem State.setChain_stages_of_le {s : State} {ps : List Positions} {k : Nat} (hk : ps.length ≤ k) :
    (s.setChain ps).stages[k]? = s.stages[k]? := by
  rw [State.setChain_stages, List.getElem?_append_right (by simpa using hk), List.length_map, List.getElem?_drop,
    Nat.add_sub_of_le hk]

/-- CADV and XOR write N stages and the response, or the response alone. -/
theorem exec_next_of_cascade_advance {i : Instr} {s t : State} (hi : i = .cadv ∨ ∃ d, i = .xor d)
    (h : exec i s = .next t) :
    ∃ st data flag, (∃ ps, ps.length = s.n.toNat ∧ t = (s.setChain ps).respond st data flag) ∨
      t = s.respond st data flag := by
  rcases exec_next h with ⟨data, flag, u, hw, rfl⟩ | ⟨code, -, rfl⟩
  · have hwrites : ∃ ps, s.chainLegal = true ∧ s.chain = some ps ∧ (∀ p ∈ ps, Positions.inRange p = true) ∧
        u = s.setChain (cascadeAdvance ps).1 := by
      rcases hi with rfl | ⟨d, rfl⟩ <;> exact hw
    obtain ⟨ps, hl, hc, -, rfl⟩ := hwrites
    exact ⟨_, _, _, .inl ⟨_, (cascadeAdvance_length_of_chain hl hc).1, rfl⟩⟩
  · exact ⟨_, _, _, .inr rfl⟩

/-! ### The advance counts of the stages (R103) -/

/-- One CASCADE_ADVANCE and then t of them, stage by stage: a stage that wraps hands its wrap on as one more advance of
the next. -/
theorem zipWith_advanceCounts_rippled (t : Nat) (ps : List Positions) :
    List.zipWith advancedStage (Claims.advanceCounts t (Claims.rippled ps)) (Claims.rippled ps) =
      List.zipWith advancedStage (Claims.advanceCounts (t + 1) ps) ps := by
  induction ps generalizing t with
  | nil => rfl
  | cons p ps ih =>
    have hlt := p.a.isLt
    have ha : (Claims.stepped p).a.toNat = (p.a.toNat + 1) % 256 := by
      rw [← advanced_eq_stepped]
      exact succ_toNat .a p.a
    have hhead : advancedStage t (Claims.stepped p) = advancedStage (t + 1) p := by
      rw [← advanced_eq_stepped, advancedStage]
    rw [rippled_cons]
    simp only [Claims.advanceCounts, List.zipWith_cons_cons, hhead, ha]
    congr 1
    cases hwrap : p.a == 0xFF#8 with
    | false =>
      have hne : p.a.toNat ≠ 255 := fun h => ne_of_beq_false hwrap (BitVec.eq_of_toNat_eq h)
      have hcount : (t + (p.a.toNat + 1) % 256) / 256 = (t + 1 + p.a.toNat) / 256 := by omega
      rw [hcount]
      rfl
    | true =>
      have heq : p.a.toNat = 255 := congrArg BitVec.toNat (eq_of_beq hwrap)
      have hcount : (t + 1 + p.a.toNat) / 256 = (t + (p.a.toNat + 1) % 256) / 256 + 1 := by omega
      rw [hcount]
      exact ih _

theorem zipWith_advanceCounts_zero (ps : List Positions) :
    List.zipWith advancedStage (Claims.advanceCounts 0 ps) ps = ps := by
  induction ps with
  | nil => rfl
  | cons p ps ih =>
    have hcount : (0 + p.a.toNat) / 256 = 0 := by rw [Nat.zero_add, Nat.div_eq_of_lt p.a.isLt]
    rw [Claims.advanceCounts, List.zipWith_cons_cons, hcount, ih, advancedStage]

/-- After t CASCADE_ADVANCEs each stage has advanced a_k(t) times. -/
theorem iterate_rippled (t : Nat) (ps : List Positions) :
    Claims.rippled^[t] ps = List.zipWith advancedStage (Claims.advanceCounts t ps) ps := by
  induction t generalizing ps with
  | zero => exact (zipWith_advanceCounts_zero ps).symm
  | succ t ih => rw [Function.iterate_succ_apply, ih, zipWith_advanceCounts_rippled]

/-- Stage 0 has advanced t times (R102). -/
theorem iterate_rippled_cons (t : Nat) (p : Positions) (ps : List Positions) :
    ∃ qs, Claims.rippled^[t] (p :: ps) = advancedStage t p :: qs :=
  ⟨_, iterate_rippled t (p :: ps)⟩

theorem iterate_rippled_length (t : Nat) (ps : List Positions) : (Claims.rippled^[t] ps).length = ps.length := by
  induction t with
  | zero => rfl
  | succ t ih => rw [Function.iterate_succ_apply', rippled_length, ih]

theorem iterate_rippled_inRange {ps : List Positions} (h : ∀ p ∈ ps, Positions.inRange p = true) (t : Nat) :
    ∀ p ∈ Claims.rippled^[t] ps, Positions.inRange p = true := by
  induction t with
  | zero => exact h
  | succ t ih =>
    rw [Function.iterate_succ_apply']
    exact rippled_inRange ih

/-! ### The period of a chain (R104) -/

/-- The stages after the first, advanced as often as the first one wraps, are back exactly when that number is a
multiple of their period; the first wraps t / 256 times when it is back itself. -/
theorem zipWith_advanceCounts_eq_self_iff (p : Positions) (ps : List Positions)
    (h : ∀ q ∈ p :: ps, Positions.inRange q = true) (t : Nat) :
    List.zipWith advancedStage (Claims.advanceCounts t (p :: ps)) (p :: ps) = p :: ps ↔
      256 ^ ps.length * Claims.period ∣ t := by
  induction ps generalizing p t with
  | nil => simp [Claims.advanceCounts, advancedStage_eq_self_iff (h p List.mem_cons_self)]
  | cons q ps ih =>
    have hp := h p List.mem_cons_self
    have htail : ∀ r ∈ q :: ps, Positions.inRange r = true := fun r hr => h r (List.mem_cons_of_mem p hr)
    rw [Claims.advanceCounts, List.zipWith_cons_cons, List.cons.injEq, advancedStage_eq_self_iff hp, ih q htail,
      List.length_cons]
    have hperiod : Claims.period ∣ 256 ^ (ps.length + 1) * Claims.period := Nat.dvd_mul_left _ _
    have hwraps (ht : Claims.period ∣ t) : 256 ^ ps.length * Claims.period ∣ (t + p.a.toNat) / 256 ↔
        256 ^ (ps.length + 1) * Claims.period ∣ t := by
      have h256 : 256 ∣ t := period_dvd_iff.mp ht .a
      have hcount : (t + p.a.toNat) / 256 = t / 256 := by have := p.a.isLt; omega
      rw [hcount, Nat.dvd_div_iff_mul_dvd h256, ← Nat.mul_assoc, ← Nat.pow_succ']
    exact ⟨fun ⟨ht, hrest⟩ => (hwraps ht).mp hrest,
      fun ht => ⟨hperiod.trans ht, (hwraps (hperiod.trans ht)).mpr ht⟩⟩

theorem iterate_rippled_eq_self_iff {s : State} {ps : List Positions} (h : Claims.ChainAt s ps) (t : Nat) :
    Claims.rippled^[t] ps = ps ↔ 256 ^ (s.n.toNat - 1) * Claims.period ∣ t := by
  obtain ⟨hn, hlen, -, hr⟩ := h
  rw [iterate_rippled, ← hlen]
  cases ps with
  | nil => rw [← hlen] at hn; cases hn
  | cons p ps => exact zipWith_advanceCounts_eq_self_iff p ps hr t

/-! ### Runs of CVAL, CADV and XOR on a keyed chain -/

/-- A keyed chain advanced t times is a keyed chain. -/
theorem setChain_iterate_chainAt {s : State} {ps : List Positions} (h : Claims.ChainAt s ps) (t : Nat) :
    Claims.ChainAt (s.setChain (Claims.rippled^[t] ps)) (Claims.rippled^[t] ps) := by
  obtain ⟨hn, hlen, -, hr⟩ := h
  have hlen' : (Claims.rippled^[t] ps).length = s.n.toNat := (iterate_rippled_length t ps).trans hlen
  refine ⟨hn, hlen', ?_, iterate_rippled_inRange hr t⟩
  rw [State.setChain_n, State.setChain_stages, List.take_left' (by rw [List.length_map, hlen'])]

theorem setChain_of_chainAt {s : State} {ps : List Positions} (h : Claims.ChainAt s ps) : s.setChain ps = s := by
  obtain ⟨-, hlen, htake, -⟩ := h
  rw [State.setChain, hlen, ← htake, List.take_append_drop]

theorem State.setChain_setChain {s : State} {ps qs : List Positions} (h : qs.length = ps.length) :
    (s.setChain ps).setChain qs = s.setChain qs := by
  simp [State.setChain, h]

theorem wf_of_isChainCommand {i : Instr} (h : Claims.isChainCommand i = true) : i.wf = true := by
  cases i with
  | cfg n => rfl
  | cval => rfl
  | cadv => rfl
  | xor d => rfl
  | _ => cases h

/-- A chain command other than CFG completes on a keyed chain, and advances it when it is a CASCADE_ADVANCE. -/
theorem exec_of_chainAt {i : Instr} {s : State} {ps : List Positions} (h : Claims.ChainAt s ps)
    (hi : (Claims.isChainCommand i && !Claims.isCfg i) = true) :
    ∃ data flag, exec i s =
      completes (s.setChain (Claims.rippled^[[i].countP Claims.isCascadeAdvance] ps)) data flag := by
  cases i with
  | cval =>
    have hsame : s.setChain (Claims.rippled^[[Instr.cval].countP Claims.isCascadeAdvance] ps) = s :=
      setChain_of_chainAt h
    rw [hsame]
    exact ⟨_, _, exec_cval_of_chainAt h⟩
  | cadv => exact ⟨_, _, exec_cadv_of_chainAt h⟩
  | xor d => exact ⟨_, _, exec_xor_of_chainAt h d⟩
  | _ => cases hi

/-- The host presents the head of a queue: the step runs that command. -/
theorem step_of_presentation {s : State} {i : Instr} {rest : List HostInput} (hwf : i.wf = true)
    (hp : s.pending = presentation i :: rest) : step s = exec i (s.presentCommand rest) :=
  step_of_decode hp (decode_encode hwf)

/-- A run of chain commands without CFG advances the chain once for each CADV and XOR and writes nothing else. -/
theorem transcript_of_chainAt (is : List Instr) {s : State} {ps : List Positions} (h : Claims.ChainAt s ps)
    (his : is.all (fun i => Claims.isChainCommand i && !Claims.isCfg i) = true) {rest : List HostInput}
    (hp : s.pending = is.map presentation ++ rest) :
    ∃ rs u, transcript is.length s = some (rs, u) ∧
      u.pc = s.pc + is.length ∧ u.pending = rest ∧ u.memory = s.memory ∧ u.n = s.n ∧
      u.stages = (s.setChain (Claims.rippled^[is.countP Claims.isCascadeAdvance] ps)).stages := by
  induction is generalizing s ps with
  | nil => exact ⟨[], s, rfl, rfl, hp, rfl, rfl, congrArg State.stages (setChain_of_chainAt h).symm⟩
  | cons i is ih =>
    obtain ⟨hi, his⟩ := Bool.and_eq_true_iff.mp his
    obtain ⟨data, flag, hexec⟩ := exec_of_chainAt (s := s.presentCommand (is.map presentation ++ rest)) h hi
    have hstep := (step_of_presentation (wf_of_isChainCommand (Bool.and_eq_true_iff.mp hi).1) hp).trans hexec
    have hchain := setChain_iterate_chainAt h ([i].countP Claims.isCascadeAdvance)
    obtain ⟨rs, u, hrun, hpc, hpending, hmemory, hn, hstages⟩ :=
      ih (s := ((s.presentCommand (is.map presentation ++ rest)).setChain
        (Claims.rippled^[[i].countP Claims.isCascadeAdvance] ps)).respond .ok data flag) hchain his rfl
    refine ⟨⟨.ok, data, flag⟩ :: rs, u, ?_, ?_, hpending, hmemory, hn, ?_⟩
    · rw [List.length_cons, transcript_succ hstep rfl, hrun]
      rfl
    · rw [hpc, List.length_cons, Nat.add_comm is.length, ← Nat.add_assoc]
      rfl
    · have hcount : (i :: is).countP Claims.isCascadeAdvance =
          is.countP Claims.isCascadeAdvance + [i].countP Claims.isCascadeAdvance :=
        (List.countP_append (l₁ := [i])).trans (Nat.add_comm _ _)
      rw [hcount, Function.iterate_add_apply, ← State.setChain_setChain (iterate_rippled_length _ _)]
      exact hstages

/-- SKIP: t CADVs advance the chain t times. -/
theorem transcript_skipCommands {s : State} {ps : List Positions} (h : Claims.ChainAt s ps) (t : Nat) :
    ∃ rs u, transcript t (s.queue (skipCommands t)) = some (rs, u) ∧
      Claims.AfterCommands s u (skipCommands t) ∧ u.n = s.n ∧
      u.stages = (Claims.rippled^[t] ps).map some ++ s.stages.drop s.n.toNat := by
  have hlen : (skipCommands t).length = t := List.length_replicate
  have hcount : (skipCommands t).countP Claims.isCascadeAdvance = t := by
    simp [skipCommands, List.countP_replicate, Claims.isCascadeAdvance]
  have hall : (skipCommands t).all (fun i => Claims.isChainCommand i && !Claims.isCfg i) = true := by
    simp [skipCommands, List.all_replicate, Claims.isChainCommand, Claims.isCfg]
  obtain ⟨rs, u, hrun, hpc, hpending, hmemory, hn, hstages⟩ :=
    transcript_of_chainAt (skipCommands t) (s := s.queue (skipCommands t)) h hall rfl
  rw [hlen] at hrun
  rw [hcount] at hstages
  exact ⟨rs, u, hrun, ⟨hpc, hpending, hmemory⟩, hn,
    hstages.trans (setChain_stages_of_chainAt h (iterate_rippled_length t ps))⟩

/-! ### Stage 0 in a run of chain commands (R102) -/

/-- A lone stage 0 advanced t times. -/
theorem transcript_adv_stage_zero (t : Nat) {s : State} {p : Positions} (hp : s.stages[0]? = some (some p))
    (hr : p.inRange = true) :
    ∃ rs u, transcript t (s.queue (List.replicate t (.adv 0))) = some (rs, u) ∧
      u.stages[0]? = some (some (advancedStage t p)) ∧ u.keyed 0 = true := by
  obtain ⟨u, hrun, hstages⟩ := transcript_adv t (Nat.zero_le 255) hp hr
  have hget : u.stages[0]? = some (some (advancedStage t p)) := by
    rw [hstages, List.getElem?_set_self (List.getElem?_eq_some_iff.mp hp).1]
  exact ⟨_, u, hrun, hget, State.keyed_iff.mpr ⟨_, State.pos_eq_some.mpr hget⟩⟩

theorem advancedStage_add (m n : Nat) (p : Positions) :
    advancedStage (m + n) p = advancedStage n (advancedStage m p) := by
  induction m generalizing p with
  | zero => rw [Nat.zero_add, advancedStage]
  | succ m ih => rw [Nat.succ_add, advancedStage, advancedStage, ih]

theorem advancesIn_cons (i : Instr) (is : List Instr) (r : Response) (rs : List Response) :
    Claims.advancesIn (i :: is) (r :: rs) = Claims.advancesIn [i] [r] + Claims.advancesIn is rs :=
  List.countP_append (l₁ := [(i, r)])

theorem advancesIn_of_ok (i : Instr) {r : Response} (h : r.status = .ok) :
    Claims.advancesIn [i] [r] = [i].countP Claims.isCascadeAdvance := by
  simp [Claims.advancesIn, List.countP_cons, h]

theorem advancesIn_of_refused (i : Instr) {r : Response} (h : r.status ≠ .ok) : Claims.advancesIn [i] [r] = 0 := by
  simp [Claims.advancesIn, h]

/-- A keyed chain of an invariant state is one that the chain commands run on. -/
theorem State.chainAt_of_inv {s : State} (h : s.Inv) {ps : List Positions} (hc : s.chain = some ps) :
    Claims.ChainAt s ps := by
  obtain ⟨-, hn, hstages, -⟩ := h
  have htake := State.chain_eq_some.mp hc
  refine ⟨hn.1, State.chain_length (State.chainLegal_iff.mpr hn) hc, htake, fun p hp => ?_⟩
  have hmem : some p ∈ s.stages.take s.n.toNat := htake ▸ List.mem_map_of_mem hp
  exact hstages _ (List.mem_of_mem_take hmem) p rfl

theorem State.chain_ne_none_of_keyed {s : State} (h : ∀ k, k < s.nmax → s.keyed k = true) : s.chain ≠ none := by
  intro hnone
  obtain ⟨k, hk, hget⟩ := List.getElem_of_mem (List.mem_of_mem_take (keyedPositions_eq_none.mp hnone))
  have hpos : s.pos k = none := State.pos_eq_none_of_unkeyed (List.getElem?_eq_some_iff.mpr ⟨hk, hget⟩)
  simpa [State.keyed, hpos] using h k hk

/-- A chain with stage 0 at p, advanced t times, has it at p advanced t times. -/
theorem setChain_iterate_stage_zero {s : State} {ps : List Positions} (h : Claims.ChainAt s ps) {p : Positions}
    (hp : s.stages[0]? = some (some p)) (t : Nat) :
    (s.setChain (Claims.rippled^[t] ps)).stages[0]? = some (some (advancedStage t p)) := by
  obtain ⟨hn, hlen, htake, -⟩ := h
  have hhead : (ps.map some)[0]? = some (some p) := by rw [← htake, List.getElem?_take_of_lt hn, hp]
  cases ps with
  | nil => cases hhead
  | cons q ps =>
    obtain rfl : q = p := by simpa using hhead
    obtain ⟨qs, hqs⟩ := iterate_rippled_cons t q ps
    rw [hqs]
    rfl

/-- A chain command other than CFG on a chain that is not keyed is refused (R144). -/
theorem exec_of_chain_none {i : Instr} {s : State} (hl : s.chainLegal = true) (hc : s.chain = none)
    (hi : (Claims.isChainCommand i && !Claims.isCfg i) = true) : exec i s = raiseError .notKeyed s := by
  cases i with
  | cval => exact onKeyedChain_of_unkeyed hl hc _
  | cadv => exact onKeyedChain_of_unkeyed hl hc _
  | xor d => exact onKeyedChain_of_unkeyed hl hc _
  | _ => cases hi

/-- CFG answers and leaves the stages alone. -/
theorem exec_cfg_answers (n : Byte) (s : State) :
    ∃ t r, exec (.cfg n) s = .next t ∧ t.response = some r ∧ t.stages = s.stages := by
  by_cases hn : 1 ≤ n.toNat ∧ n.toNat ≤ s.nmax
  · exact ⟨_, _, exec_cfg_of_legal hn.1 hn.2, rfl, rfl⟩
  · exact ⟨_, _, exec_cfg_of_illegal (by omega), rfl, rfl⟩

/-- A chain command in an invariant state with stage 0 keyed answers; stage 0 advances when the command is a
CASCADE_ADVANCE that is not refused, and on a block whose stages are all keyed none is. -/
theorem exec_chainCommand_of_inv {i : Instr} {s : State} {p : Positions} (h : s.Inv)
    (hi : Claims.isChainCommand i = true) (hp : s.stages[0]? = some (some p)) :
    ∃ t r, exec i s = .next t ∧ t.response = some r ∧
      t.stages[0]? = some (some (advancedStage (Claims.advancesIn [i] [r]) p)) ∧
      ((∀ k, k < s.nmax → s.keyed k = true) → Claims.advancesIn [i] [r] = [i].countP Claims.isCascadeAdvance) := by
  cases hcfg : Claims.isCfg i with
  | true =>
    cases i with
    | cfg n =>
      obtain ⟨t, r, hexec, hresponse, hstages⟩ := exec_cfg_answers n s
      exact ⟨t, r, hexec, hresponse, hstages ▸ hp, fun _ => rfl⟩
    | _ => cases hcfg
  | false =>
    have hchainCommand : (Claims.isChainCommand i && !Claims.isCfg i) = true := by rw [hi, hcfg]; rfl
    cases hc : s.chain with
    | none =>
      have ⟨_, hn, _⟩ := h
      refine ⟨_, _, exec_of_chain_none (State.chainLegal_iff.mpr hn) hc hchainCommand, rfl, ?_,
        fun hkeyed => absurd hc (State.chain_ne_none_of_keyed hkeyed)⟩
      rw [advancesIn_of_refused i (by decide)]
      exact hp
    | some ps =>
      have hchain := State.chainAt_of_inv h hc
      obtain ⟨data, flag, hexec⟩ := exec_of_chainAt hchain hchainCommand
      have hcount := advancesIn_of_ok i (r := ⟨.ok, data, flag⟩) rfl
      refine ⟨_, _, hexec, rfl, ?_, fun _ => hcount⟩
      rw [hcount]
      exact setChain_iterate_stage_zero hchain hp _

/-- In any run of chain commands from an invariant state, stage 0 advances once for each CASCADE_ADVANCE. -/
theorem transcript_of_inv (is : List Instr) {s : State} {p : Positions} (h : s.Inv)
    (his : is.all Claims.isChainCommand = true) (hp : s.stages[0]? = some (some p)) {rest : List HostInput}
    (hpending : s.pending = is.map presentation ++ rest) :
    ∃ rs u, transcript is.length s = some (rs, u) ∧ rs.length = is.length ∧
      u.stages[0]? = some (some (advancedStage (Claims.advancesIn is rs) p)) ∧
      ((∀ k, k < s.nmax → s.keyed k = true) → Claims.advancesIn is rs = is.countP Claims.isCascadeAdvance) := by
  induction is generalizing s p with
  | nil => exact ⟨[], s, rfl, rfl, hp, fun _ => rfl⟩
  | cons i is ih =>
    obtain ⟨hi, his⟩ := Bool.and_eq_true_iff.mp his
    have hinv : (s.presentCommand (is.map presentation ++ rest)).Inv := h
    obtain ⟨t, r, hexec, hresponse, hstage, hcount⟩ := exec_chainCommand_of_inv hinv hi hp
    have hkey : ∀ k keyin, i ≠ .key k keyin := by
      rintro k keyin rfl
      cases hi
    obtain ⟨rs, u, hrun, hlen, hstages, hcounts⟩ := ih (exec_inv hinv hexec) his hstage (exec_host hexec).1
    refine ⟨r :: rs, u, ?_, congrArg Nat.succ hlen, ?_, fun hkeyed => ?_⟩
    · have hstep := (step_of_presentation (wf_of_isChainCommand hi) hpending).trans hexec
      rw [List.length_cons, transcript_succ hstep hresponse, hrun]
      rfl
    · rw [advancesIn_cons, advancedStage_add, hstages]
    · have hkeyed' : ∀ k, k < t.nmax → t.keyed k = true := by
        intro k hk
        rw [exec_keyed_of_not_key hexec hkey]
        exact hkeyed k (exec_nmax hexec ▸ hk)
      rw [advancesIn_cons, hcount hkeyed, hcounts hkeyed']
      exact (List.countP_append (l₁ := [i])).symm

end Sys2Proof.Machine

namespace Sys2Proof.Proofs

open Sys2Proof.Machine Sys2Proof.Claims

/-- Settles O23: the row of CFG, and its one check decides between the write and the refusal. -/
theorem cfgSetsTheChainLength : Obligations.CfgSetsTheChainLength :=
  ⟨rowDecodes_of_row (r := ⟨.cfg, _, _⟩) (by decide),
    fun _ _ => ⟨exec_cfg_of_legal, exec_cfg_of_illegal⟩⟩

/-- Settles O28: the row of CVAL, and one case per outcome of the chain's checks. -/
theorem cvalAnswersTheChainByte : Obligations.CvalAnswersTheChainByte :=
  ⟨rowDecodes_of_row (r := ⟨.cval, _, _⟩) (by decide), fun _ _ => exec_cval_of_chainAt,
    fun _ _ hn hmax hk hnone => onKeyedChain_of_stage_none hn hmax hk hnone _⟩

/-- Settles O29: the row of CADV, and the carry that reaches a stage is the wrap of every stage before it. -/
theorem cadvRipplesTheCarry : Obligations.CadvRipplesTheCarry := by
  refine ⟨rowDecodes_of_row (r := ⟨.cadv, _, _⟩) (by decide), fun s ps h => ?_,
    fun _ _ hn hmax hk hnone => onKeyedChain_of_stage_none hn hmax hk hnone _⟩
  rw [exec_cadv_of_chainAt h, ← setChain_stages_of_chainAt h (rippled_length ps)]
  rfl

/-- Settles O31: with N = 1 the chain's checks are those of stage 0, its value that of one stage and its carry out the
stage's wrap bit. -/
theorem oneStageChainActsAsStageZero : Obligations.OneStageChainActsAsStageZero :=
  fun _ hn hmax => ⟨exec_cval_of_one hn hmax, exec_cadv_of_one hn hmax⟩

/-- Settles O34: an advance writes the N active stages, which are keyed already, and a refusal writes none. -/
theorem chainCommandsLeaveInactiveStagesAlone : Obligations.ChainCommandsLeaveInactiveStagesAlone := by
  intro i s t hi h
  have hkey : ∀ k keyin, i ≠ .key k keyin := by
    rintro k keyin rfl
    simp at hi
  obtain ⟨hpending, hpc⟩ := exec_host h
  have hframe : (∀ k, s.n.toNat ≤ k → t.stages[k]? = s.stages[k]?) ∧ t.n = s.n := by
    obtain ⟨st, data, flag, ⟨ps, hlen, rfl⟩ | rfl⟩ := exec_next_of_cascade_advance hi h
    · exact ⟨fun k hk => State.setChain_stages_of_le (hlen ▸ hk), rfl⟩
    · exact ⟨fun k _ => rfl, rfl⟩
  obtain ⟨hstages, hn⟩ := hframe
  exact ⟨hstages, exec_keyed_of_not_key h hkey, exec_nmax h, hn, hpending, hpc, fun addr => by rw [exec_memory h]⟩

/-- Settles O42: stage 0 moves in every advance of the chain, whatever the chain's length is at that point, and a
refused command moves nothing. -/
theorem firstStageMovesAsIfAlone : Obligations.FirstStageMovesAsIfAlone := by
  refine ⟨fun s ps is h his => ?_, fun s is h hkeyed his => ?_⟩
  · have ⟨hn, hlen, htake, hr⟩ := h
    obtain ⟨p, hp, hpr⟩ : ∃ p, s.stages[0]? = some (some p) ∧ p.inRange = true := by
      have hpos : 0 < ps.length := by omega
      refine ⟨ps[0], ?_, hr _ (List.getElem_mem hpos)⟩
      rw [← List.getElem?_take_of_lt hn, htake]
      simp [hpos]
    obtain ⟨rs, u, hrun, -, -, -, -, hstages⟩ := transcript_of_chainAt is (s := s.queue is) h his rfl
    obtain ⟨rs', u', hrun', hstage, hkeyed⟩ := transcript_adv_stage_zero (is.countP isCascadeAdvance) hp hpr
    refine ⟨rs, u, rs', u', hrun, hrun', ?_, hkeyed⟩
    rw [hstages, hstage]
    exact setChain_iterate_stage_zero h hp _
  · obtain ⟨p, hpos⟩ := State.keyed_iff.mp hkeyed
    have hp := State.pos_eq_some.mp hpos
    have ⟨_, _, hstages, _⟩ := h
    have hpr := hstages _ (List.mem_of_getElem? hp) p rfl
    obtain ⟨rs, u, hrun, hlen, hstage, hcount⟩ := transcript_of_inv is (s := s.queue is) h his hp rfl
    obtain ⟨rs', u', hrun', hstage', hkeyed'⟩ := transcript_adv_stage_zero (advancesIn is rs) hp hpr
    exact ⟨rs, u, rs', u', hrun, hlen, hrun', hstage.trans hstage'.symm, hkeyed', hcount⟩

/-- Settles O43: t CADVs are t CASCADE_ADVANCEs, and each of them adds to a stage's count the wrap of the stage before
it. -/
theorem chainAdvanceCountsAreTheCarryFormula : Obligations.ChainAdvanceCountsAreTheCarryFormula := by
  intro s ps t h
  rw [← iterate_rippled]
  exact transcript_skipCommands h t

/-- Settles O44: after t CADVs the last stage is back exactly when its advance count is a multiple of P, and then every
count before it divides evenly by 256. -/
theorem chainPeriodIsExact : Obligations.ChainPeriodIsExact := by
  intro s ps t h
  obtain ⟨rs, u, hrun, -, -, hstages⟩ := transcript_skipCommands h t
  refine ⟨rs, u, hrun, ?_, fun j => ?_⟩
  · have ⟨_, _, htake, _⟩ := h
    have hstart : s.stages = ps.map some ++ s.stages.drop s.n.toNat := by rw [← htake, List.take_append_drop]
    have hsome := List.map_injective_iff.mpr (Option.some_injective Positions)
    calc u.stages = s.stages
      _ ↔ u.stages = ps.map some ++ s.stages.drop s.n.toNat := by rw [← hstart]
      _ ↔ Claims.rippled^[t] ps = ps := by rw [hstages, List.append_left_inj, hsome.eq_iff]
      _ ↔ _ := iterate_rippled_eq_self_iff h t
  · rw [Function.iterate_add_apply, (iterate_rippled_eq_self_iff h _).mpr dvd_rfl]

end Sys2Proof.Proofs
end

section
/-! PROOFS. The stream command XOR (spec/42_stream.md): its encoding and its meaning, the keystream of a run of PROCESS,
and the inverse and identity runs that follow from it. -/

namespace Sys2Proof.Machine

/-! ### The responses of PROCESS (R121) -/

/-- The response to XOR #d on a chain at `ps` (R120). -/
def xorResponse (m : Memory) (ps : List Positions) (d : Byte) : Response :=
  ⟨.ok, d ^^^ Claims.chainByte m ps, ps.all fun q => q.a == 0xFF#8⟩

/-- The output of PROCESS: byte i is xored with the value of the chain advanced i times (R121). -/
def streamOutput (m : Memory) (ps : List Positions) (ds : List Byte) : List Byte :=
  ds.mapIdx fun i d => d ^^^ Claims.chainByte m (Claims.rippled^[i] ps)

/-- Each XOR of a PROCESS is answered from the chain advanced by those before it. -/
theorem transcript_processCommands_responses (ds : List Byte) {s : State} {ps : List Positions}
    (h : Claims.ChainAt s ps) :
    ∃ u, transcript ds.length (s.queue (processCommands ds)) =
      some (ds.mapIdx fun i => xorResponse s.memory (Claims.rippled^[i] ps), u) := by
  induction ds generalizing s ps with
  | nil => exact ⟨s, rfl⟩
  | cons d ds ih =>
    have hlen : (processCommands ds).length = ds.length := List.length_map _
    have hadvanced : Claims.ChainAt (s.setChain (Claims.rippled ps)) (Claims.rippled ps) :=
      setChain_iterate_chainAt h 1
    obtain ⟨u, hrun⟩ := ih (s := ((s.presentCommand s.pending).setChain (Claims.rippled ps)).respond .ok
      (d ^^^ Claims.chainByte s.memory ps) (ps.all fun q => q.a == 0xFF#8)) hadvanced
    rw [← hlen] at hrun
    have hqueue := transcript_queue_completes (i := .xor d) rfl
      (exec_xor_of_chainAt (s := (s.presentCommand s.pending).queue (processCommands ds)) h d) hrun
    rw [List.length_cons, hlen] at hqueue
    exact ⟨u, hqueue.trans (by rw [List.mapIdx_cons]; rfl)⟩

/-- PROCESS: the responses, and the state that is left. -/
theorem transcript_processCommands (ds : List Byte) {s : State} {ps : List Positions} (h : Claims.ChainAt s ps) :
    ∃ u, transcript ds.length (s.queue (processCommands ds)) =
        some (ds.mapIdx fun i => xorResponse s.memory (Claims.rippled^[i] ps), u) ∧
      Claims.AfterCommands s u (processCommands ds) ∧ u.n = s.n ∧
      u.stages = (Claims.rippled^[ds.length] ps).map some ++ s.stages.drop s.n.toNat := by
  have hlen : (processCommands ds).length = ds.length := List.length_map _
  have hcount : (processCommands ds).countP Claims.isCascadeAdvance = ds.length := by
    rw [List.countP_eq_length.mpr (by simp [processCommands, Claims.isCascadeAdvance]), hlen]
  have hall : (processCommands ds).all (fun i => Claims.isChainCommand i && !Claims.isCfg i) = true := by
    simp [processCommands, Claims.isChainCommand, Claims.isCfg]
  obtain ⟨rs, u, hrun, hpc, hpending, hmemory, hn, hstages⟩ :=
    transcript_of_chainAt (processCommands ds) (s := s.queue (processCommands ds)) h hall rfl
  obtain ⟨v, hresponses⟩ := transcript_processCommands_responses ds h
  rw [hlen, hresponses] at hrun
  obtain ⟨rfl, rfl⟩ : _ = rs ∧ v = u := by simpa using hrun
  rw [hcount] at hstages
  exact ⟨v, hresponses, ⟨hpc, hpending, hmemory⟩, hn,
    hstages.trans (setChain_stages_of_chainAt h (iterate_rippled_length ds.length ps))⟩

@[simp] theorem streamOutput_length (m : Memory) (ps : List Positions) (ds : List Byte) :
    (streamOutput m ps ds).length = ds.length :=
  List.length_mapIdx

theorem map_data_xorResponse (m : Memory) (ps : List Positions) (ds : List Byte) :
    (ds.mapIdx fun i => xorResponse m (Claims.rippled^[i] ps)).map Response.data = streamOutput m ps ds :=
  List.ext_getElem (by simp) fun i _ _ => by simp [streamOutput, xorResponse]

/-- The same keystream twice cancels (R122). -/
theorem streamOutput_streamOutput (m : Memory) (ps : List Positions) (ds : List Byte) :
    streamOutput m ps (streamOutput m ps ds) = ds := by
  refine List.ext_getElem (by simp) fun i _ _ => ?_
  simp [streamOutput]

/-! ### All-zero tables (R123) -/

theorem foldl_xor_eq_zero {α : Type} {l : List α} {f : α → Byte} (h : ∀ a ∈ l, f a = 0x00#8) :
    l.foldl (fun v a => v ^^^ f a) 0x00#8 = 0x00#8 :=
  List.foldlRecOn l _ (motive := (· = 0x00#8)) rfl fun v hv a ha => by rw [hv, h a ha, BitVec.xor_zero]

theorem stageValue_of_zero_tables {m : Memory} {k : Nat} {p : Positions} (hp : p.inRange = true)
    (hzero : ∀ w (i : Byte), i.toNat < w.modulus → tableRead m k w i = 0x00#8) : stageValue m k p = 0x00#8 :=
  foldl_xor_eq_zero fun w _ => hzero w _ (Positions.inRange_iff.mp hp w)

theorem chainByte_of_zero_tables {m : Memory} {ps : List Positions} (hr : ∀ p ∈ ps, Positions.inRange p = true)
    (hzero : ∀ k w (i : Byte), k < ps.length → i.toNat < w.modulus → tableRead m k w i = 0x00#8) :
    Claims.chainByte m ps = 0x00#8 := by
  refine foldl_xor_eq_zero (f := id) fun v hv => ?_
  obtain ⟨k, hk, rfl⟩ := List.mem_mapIdx.mp hv
  rw [id, ← stageValue_eq_stageByte]
  exact stageValue_of_zero_tables (hr _ (List.getElem_mem hk)) fun w i => hzero k w i hk

theorem streamOutput_of_zero_keystream {m : Memory} {ps : List Positions}
    (hzero : ∀ i, Claims.chainByte m (Claims.rippled^[i] ps) = 0x00#8) (ds : List Byte) :
    streamOutput m ps ds = ds := by
  refine List.ext_getElem (by simp) fun i _ _ => ?_
  simp [streamOutput, hzero]

/-- An active stage of a keyed chain is keyed, at positions of the chain (R24). -/
theorem stage_of_chainAt {s : State} {ps : List Positions} (h : Claims.ChainAt s ps) {k : Nat}
    (hk : k < s.n.toNat) : ∃ p ∈ ps, s.stages[k]? = some (some p) := by
  obtain ⟨-, hlen, htake, -⟩ := h
  have hlt : k < ps.length := hlen ▸ hk
  refine ⟨ps[k], List.getElem_mem hlt, ?_⟩
  rw [← List.getElem?_take_of_lt hk, htake, List.getElem?_map, List.getElem?_eq_getElem hlt]
  rfl

end Sys2Proof.Machine

namespace Sys2Proof.Proofs

open Sys2Proof.Machine Sys2Proof.Claims

/-- Settles O30: the row of XOR, and one case per outcome of the chain's checks. -/
theorem xorCombinesThenAdvances : Obligations.XorCombinesThenAdvances := by
  refine ⟨rowDecodes_of_row (r := ⟨.xor, _, _⟩) (by decide), fun s ps d h => ?_,
    fun _ _ _ hn hmax hk hnone => onKeyedChain_of_stage_none hn hmax hk hnone _⟩
  rw [exec_xor_of_chainAt h, ← setChain_stages_of_chainAt h (rippled_length ps)]
  rfl

/-- Settles O45: the responses of the XORs one by one, and their L advances of the chain. -/
theorem processXorsTheKeystream : Obligations.ProcessXorsTheKeystream := by
  intro s ps ds h
  obtain ⟨u, hrun, hafter, hn, hstages⟩ := transcript_processCommands ds h
  refine ⟨_, u, hrun, List.length_mapIdx, fun r hr => ?_, map_data_xorResponse _ _ _, hafter, hn, hstages⟩
  obtain ⟨i, _, rfl⟩ := List.mem_mapIdx.mp hr
  rfl

/-- Settles O46: both runs xor with the keystream of the same tables and positions, which cancels, and both leave the
active stages at the same positions. -/
theorem streamIsAnInvolution : Obligations.StreamIsAnInvolution := by
  intro s s' ps ds h h' hn hmemory
  obtain ⟨u, hrun, -, -, hstages⟩ := transcript_processCommands ds h
  obtain ⟨u', hrun', -, -, hstages'⟩ := transcript_processCommands (streamOutput s.memory ps ds) h'
  rw [streamOutput_length] at hrun' hstages'
  refine ⟨_, u, _, u', hrun, map_data_xorResponse _ _ _ ▸ hrun', ?_, ?_⟩
  · rw [map_data_xorResponse, map_data_xorResponse, hmemory, streamOutput_streamOutput]
  · have ⟨_, hlen, _⟩ := h
    have hactive : ((Claims.rippled^[ds.length] ps).map some).length = s.n.toNat := by
      rw [List.length_map, iterate_rippled_length, hlen]
    rw [hstages, hstages', List.take_left' hactive, List.take_left' hactive]

/-- Settles O47: every value is an xor of table bytes in range, and a zero keystream leaves the message as it is. -/
theorem zeroTablesGiveTheIdentity : Obligations.ZeroTablesGiveTheIdentity := by
  intro s ps ds h hzero
  have ⟨_, hlen, _, hr⟩ := h
  have hkeystream (i : Nat) : chainByte s.memory (rippled^[i] ps) = 0x00#8 := by
    refine chainByte_of_zero_tables (iterate_rippled_inRange hr i) fun k w j hk => hzero k w j ?_
    rwa [iterate_rippled_length, hlen] at hk
  refine ⟨fun k hk => ?_, hkeystream, ?_, ?_⟩
  · obtain ⟨p, hp, hstage⟩ := stage_of_chainAt h hk
    rw [exec_val_of_inRange hstage (hr p hp), stageValue_of_zero_tables (hr p hp) fun w i => hzero k w i hk]
    rfl
  · have hstart : chainByte s.memory ps = 0x00#8 := hkeystream 0
    rw [exec_cval_of_chainAt h, hstart]
    rfl
  · obtain ⟨u, hrun, -⟩ := transcript_processCommands ds h
    exact ⟨_, u, hrun, (map_data_xorResponse _ _ _).trans (streamOutput_of_zero_keystream hkeystream ds)⟩

end Sys2Proof.Proofs
end

section
/-! PROOFS. The command cycle and NOP (spec/43_control.md): in an invariant state every presented command gets a
response, only KEY reads KEYIN, and NOP answers OK. -/

namespace Sys2Proof

/-! ### KEYIN under the decoder (R130) -/

theorem instrOfRow_of_ne_key {m : Mnemonic} (h : m ≠ .key) (cw : CommandWord) (keyin keyin' : KeyOperand) :
    instrOfRow m cw keyin = instrOfRow m cw keyin' := by
  cases m with
  | key => exact absurd rfl h
  | _ => rfl

/-- A word outside the row of KEY decodes the same beside every KEYIN. -/
theorem decode_of_not_key_row {cw : CommandWord} (h : cw &&& 0xFFFF00FF#32 ≠ 0x20000000#32)
    (keyin keyin' : KeyOperand) : decode cw keyin = decode cw keyin' := by
  cases hd : decode cw keyin with
  | error e =>
    have hrow := no_row_of_decode hd
    rw [← hd, decode_of_no_row hrow, decode_of_no_row hrow]
  | ok i =>
    obtain ⟨r, hr, hmatch, rfl⟩ := row_of_decode hd
    have hkey : r.mnemonic ≠ .key := fun hm => h <|
      (decode_mnemonic_iff (r := ⟨.key, _, _⟩) (by decide) cw keyin).mp ⟨_, hd, (instrOfRow_mnemonic ..).trans hm⟩
    rw [decode_of_row hr hmatch, instrOfRow_of_ne_key hkey cw keyin keyin']

end Sys2Proof

namespace Sys2Proof.Machine

/-! ### Every command answers in an invariant state (R130) -/

/-- The outcome is a next state that holds a response. -/
def Responds (result : Result) : Prop := ∃ t r, result = .next t ∧ t.response = some r

theorem Responds.of_respond (s : State) (st : Status) (data : Byte) (flag : Bool) :
    Responds (.next (s.respond st data flag)) :=
  ⟨_, _, rfl, s.respond_response st data flag⟩

theorem Responds.onStage {s : State} {body : Result} (hbody : Responds body) (k : Nat) :
    Responds (onStage k s body) := by
  rcases Nat.lt_or_ge k s.nmax with hk | hk
  · rwa [onStage_of_lt hk]
  · rw [onStage_of_le hk]
    exact .of_respond s _ _ _

theorem Responds.onIndexDomain {ps : List Positions} {body : Result} (hbody : Responds body)
    (hr : ∀ p ∈ ps, Positions.inRange p = true) (reason : Fault) : Responds (onIndexDomain ps reason body) := by
  rwa [onIndexDomain_of_inRange hr]

theorem State.inRange_of_inv {s : State} (h : s.Inv) {k : Nat} {p : Positions} (hp : s.pos k = some p) :
    p.inRange = true := by
  obtain ⟨-, -, hstages, -⟩ := h
  exact hstages _ (List.mem_of_getElem? (State.pos_eq_some.mp hp)) p rfl

/-- A refused stage is answered too, and a keyed stage of an invariant state has its positions in range. -/
theorem Responds.onKeyedStage {s : State} (h : s.Inv) {body : Positions → Result}
    (hbody : ∀ p, p.inRange = true → Responds (body p)) (k : Nat) : Responds (onKeyedStage k s body) := by
  rcases onKeyedStage_cases k s body with ⟨-, he⟩ | ⟨-, -, he⟩ | ⟨p, hp, he⟩ <;> rw [he]
  · exact .of_respond s _ _ _
  · exact .of_respond s _ _ _
  · exact hbody p (State.inRange_of_inv h hp)

/-- In an invariant state N is legal, and a keyed chain has its positions in range. -/
theorem Responds.onKeyedChain {s : State} (h : s.Inv) {body : List Positions → Result}
    (hbody : ∀ ps, (∀ p ∈ ps, Positions.inRange p = true) → Responds (body ps)) :
    Responds (onKeyedChain s body) := by
  rcases onKeyedChain_cases s body with ⟨hl, -⟩ | ⟨-, -, he⟩ | ⟨ps, -, hc, he⟩
  · have ⟨_, hn, _⟩ := h
    exact absurd (State.chainLegal_iff.mpr hn) (Bool.eq_false_iff.mp hl)
  · rw [he]
    exact .of_respond s _ _ _
  · rw [he]
    have ⟨_, _, _, hr⟩ := State.chainAt_of_inv h hc
    exact hbody ps hr

theorem exec_responds_of_inv {s : State} (h : s.Inv) (i : Instr) : Responds (exec i s) := by
  cases i with
  | nop => exact .of_respond s _ _ _
  | cfg n =>
    obtain ⟨t, r, hexec, hresponse, -⟩ := exec_cfg_answers n s
    exact ⟨t, r, hexec, hresponse⟩
  | key k keyin => exact .onStage (.of_respond _ _ _ _) k
  | val k => exact .onKeyedStage h (fun p hr => .onIndexDomain (.of_respond s _ _ _) (by simpa using hr) _) k
  | adv k => exact .onKeyedStage h (fun p hr => .onIndexDomain (.of_respond _ _ _ _) (by simpa using hr) _) k
  | rdpos k w => exact .onKeyedStage h (fun p _ => .of_respond s _ _ _) k
  | cval => exact .onKeyedChain h fun ps hr => .onIndexDomain (.of_respond s _ _ _) hr _
  | cadv => exact .onKeyedChain h fun ps hr => .onIndexDomain (.of_respond _ _ _ _) hr _
  | xor d => exact .onKeyedChain h fun ps hr => .onIndexDomain (.of_respond _ _ _ _) hr _

theorem step_of_nothing_pending {s : State} (hp : s.pending = []) : step s = .next s := by
  simp only [step, hp]

/-- A presented command is consumed, moves the host's pc by one and gets a response (R29, R130). -/
theorem step_command_of_inv {s : State} (h : s.Inv) {cw : CommandWord} {keyin : KeyOperand} {rest : List HostInput}
    (hp : s.pending = .command cw keyin :: rest) :
    ∃ t r, step s = .next t ∧ t.pending = rest ∧ t.pc = s.pc + 1 ∧ t.response = some r := by
  cases hd : decode cw keyin with
  | error e => exact ⟨_, _, step_of_illegal hp hd, rfl, rfl, rfl⟩
  | ok i =>
    have hinv : (s.presentCommand rest).Inv := h
    obtain ⟨t, r, hexec, hresponse⟩ := exec_responds_of_inv hinv i
    obtain ⟨hpending, hpc⟩ := exec_host hexec
    exact ⟨t, r, (step_of_decode hp hd).trans hexec, hpending, hpc, hresponse⟩

end Sys2Proof.Machine

namespace Sys2Proof.Proofs

open Sys2Proof.Machine

/-- Settles O13: the waiting step and the reset input always answer, and no check of a command faults under the
invariant. -/
theorem everyStepAnswersInInvariantStates : Obligations.EveryStepAnswersInInvariantStates := by
  intro s h
  match hp : s.pending with
  | [] => exact ⟨s, step_of_nothing_pending hp, fun _ _ _ hcommand => nomatch hcommand⟩
  | .reset :: rest => exact ⟨_, step_of_reset hp, fun _ _ _ hcommand => nomatch hcommand⟩
  | .command cw keyin :: rest =>
    obtain ⟨t, r, hstep, hpending, hpc, hresponse⟩ := step_command_of_inv h hp
    refine ⟨t, hstep, fun _ _ _ hcommand => ?_⟩
    obtain ⟨-, rfl⟩ := List.cons.inj hcommand
    exact ⟨hpending, hpc, r, hresponse⟩

/-- Settles O16: the word decodes the same beside both values, and a step sees KEYIN only through the decoder. -/
theorem keyinIsReadOnlyByKey : Obligations.KeyinIsReadOnlyByKey := by
  intro s cw keyin keyin' rest hkey
  have hsame := decode_of_not_key_row hkey keyin' keyin
  cases hd : decode cw keyin with
  | error e =>
    rw [step_of_illegal rfl hd, step_of_illegal rfl (hsame.trans hd)]
    rfl
  | ok i =>
    rw [step_of_decode rfl hd, step_of_decode rfl (hsame.trans hd)]
    rfl

/-- Settles O22: the row of NOP, whose rule is its response. -/
theorem nopAnswersOk : Obligations.NopAnswersOk :=
  ⟨rowDecodes_of_row (r := ⟨.nop, _, _⟩) (by decide), fun _ => rfl⟩

end Sys2Proof.Proofs
end

section
/-! PROOFS. The errors (spec/60_exceptions.md): an error report writes the response alone, each code has the reasons
of its rule and no other, and the code reported is that of the first check that fails. -/

namespace Sys2Proof.Machine

/-! ### The codes a refused command can answer (R141 to R144) -/

theorem Refuses.ne_illegal {i : Instr} {s : State} {code : Status} (h : Refuses i s code) : code ≠ .illegal := by
  rintro rfl
  cases i <;> simp [Refuses] at h

theorem Refuses.cfg_of_invalidConfig {i : Instr} {s : State} (h : Refuses i s .invalidConfig) :
    ∃ n, i = .cfg n ∧ (n = 0#8 ∨ s.nmax < n.toNat) := by
  cases i with
  | cfg n =>
    obtain ⟨-, hn⟩ := h
    exact ⟨n, rfl, hn⟩
  | _ => simp [Refuses] at h

theorem Refuses.stage_of_badStage {i : Instr} {s : State} (h : Refuses i s .badStage) :
    ∃ k, s.nmax ≤ k ∧ ((∃ keyin, i = .key k keyin) ∨ i = .val k ∨ i = .adv k ∨ ∃ w, i = .rdpos k w) := by
  cases i with
  | key k keyin => exact ⟨k, h.nmax_le_of_key, .inl ⟨keyin, rfl⟩⟩
  | val k => exact ⟨k, by simpa [Refuses] using h, .inr (.inl rfl)⟩
  | adv k => exact ⟨k, by simpa [Refuses] using h, .inr (.inr (.inl rfl))⟩
  | rdpos k w => exact ⟨k, by simpa [Refuses] using h, .inr (.inr (.inr ⟨w, rfl⟩))⟩
  | _ => simp [Refuses] at h

/-- The commands that read no position register never answer NOT_KEYED. -/
theorem Refuses.ne_key_cfg_nop_of_notKeyed {i : Instr} {s : State} (h : Refuses i s .notKeyed) :
    (∀ k keyin, i ≠ .key k keyin) ∧ (∀ n, i ≠ .cfg n) ∧ i ≠ .nop := by
  refine ⟨?_, ?_, ?_⟩
  · rintro k keyin rfl
    simp [Refuses] at h
  · rintro n rfl
    simp [Refuses] at h
  · rintro rfl
    exact h

/-! ### What an error writes (R146) -/

/-- A command that answers an error code has the reason of its rule and wrote the response alone. -/
theorem exec_refused {i : Instr} {s t : State} {r : Response} (h : exec i s = .next t) (hr : t.response = some r)
    (hne : r.status ≠ .ok) : Refuses i s r.status ∧ r = ⟨r.status, 0x00#8, false⟩ ∧
      t = s.respond r.status 0x00#8 false := by
  rcases exec_next h with ⟨data, flag, u, -, rfl⟩ | ⟨code, hcode, rfl⟩
  · obtain rfl := Option.some.inj hr
    exact absurd rfl hne
  · obtain rfl := Option.some.inj hr
    exact ⟨hcode, rfl, rfl⟩

/-- A presented word that is answered with an error code, illegal or refused, changed the response and the host's side
alone. -/
theorem step_refused {s t : State} {cw : CommandWord} {keyin : KeyOperand} {rest : List HostInput} {r : Response}
    (hp : s.pending = .command cw keyin :: rest) (h : step s = .next t) (hr : t.response = some r)
    (hne : r.status ≠ .ok) :
    r = ⟨r.status, 0x00#8, false⟩ ∧ t = (s.presentCommand rest).respond r.status 0x00#8 false := by
  cases hd : decode cw keyin with
  | error e =>
    obtain rfl := next_inj ((step_of_illegal hp hd).symm.trans h)
    obtain rfl := Option.some.inj hr
    exact ⟨rfl, rfl⟩
  | ok i =>
    obtain ⟨-, hrefused⟩ := exec_refused ((step_of_decode hp hd).symm.trans h) hr hne
    exact hrefused

/-- No input but the waiting step depends on the response that stands. -/
theorem step_of_response {s : State} (hp : s.pending ≠ []) (o : Option Response) :
    step { s with response := o } = step s := by
  obtain ⟨input, rest, hin⟩ := List.exists_cons_of_ne_nil hp
  have hin' : State.pending { s with response := o } = input :: rest := hin
  cases input with
  | reset => exact (step_of_reset hin').trans (step_of_reset hin).symm
  | command cw keyin =>
    cases hd : decode cw keyin with
    | error e => exact (step_of_illegal hin' hd).trans (step_of_illegal hin hd).symm
    | ok i =>
      calc step { s with response := o }
        _ = exec i { s.presentCommand rest with response := o } := step_of_decode hin' hd
        _ = exec i (s.presentCommand rest) := Proofs.noCommandReadsAnEarlierResponse i _ o
        _ = step s := (step_of_decode hin hd).symm

/-! ### KEYED and the checks of the commands (R22, R144) -/

theorem State.stage_none_of_unkeyed {s : State} {k : Nat} (hk : k < s.nmax) (h : s.keyed k = false) :
    s.stages[k]? = some none := by
  have hget : s.stages[k]? = some s.stages[k] := List.getElem?_eq_getElem hk
  rw [hget]
  simpa [State.keyed, State.pos, hget] using h

theorem State.chainLegal_of_inv {s : State} (h : s.Inv) : s.chainLegal = true := by
  obtain ⟨-, hn, -⟩ := h
  exact State.chainLegal_iff.mpr hn

/-- The chain has positions exactly when KEYED[k] = 1 for every k < N. -/
theorem State.all_keyed_eq_isSome_chain {s : State} (hl : s.chainLegal = true) :
    (List.range s.n.toNat).all s.keyed = s.chain.isSome := by
  cases hc : s.chain with
  | some ps =>
    refine List.all_eq_true.mpr fun k hk => State.keyed_of_chain hc ?_
    exact State.chain_length hl hc ▸ List.mem_range.mp hk
  | none =>
    obtain ⟨k, hk, hget⟩ := List.mem_take_iff_getElem.mp (keyedPositions_eq_none.mp hc)
    obtain ⟨hkn, hkmax⟩ := Nat.lt_min.mp hk
    have hpos : s.pos k = none := State.pos_eq_none_of_unkeyed (List.getElem?_eq_some_iff.mpr ⟨hkmax, hget⟩)
    exact List.all_eq_false.mpr ⟨k, List.mem_range.mpr hkn, by simp [State.keyed, hpos]⟩

/-! ### The first failing check (R145) -/

/-- VAL, ADV and RDPOS have the same checks. -/
theorem firstFailure_adv (k : Nat) (s : State) :
    Claims.firstFailure (.adv k) s = Claims.firstFailure (.val k) s := rfl

theorem firstFailure_rdpos (k : Nat) (w : Wheel) (s : State) :
    Claims.firstFailure (.rdpos k w) s = Claims.firstFailure (.val k) s := rfl

theorem firstFailure_val_of_pos {k : Nat} {s : State} {p : Positions} (hp : s.pos k = some p) :
    Claims.firstFailure (.val k) s = .ok :=
  (if_neg (Nat.not_le.mpr (State.lt_nmax_of_pos hp))).trans (if_pos (State.keyed_iff.mpr ⟨p, hp⟩))

theorem firstFailure_val_of_refuses {k : Nat} {s : State} {code : Status} (h : Refuses (.val k) s code) :
    Claims.firstFailure (.val k) s = code := by
  rcases h with ⟨rfl, hk⟩ | ⟨rfl, hk, hpos⟩
  · exact if_pos hk
  · exact (if_neg (Nat.not_le.mpr hk)).trans (if_neg (by simp [State.keyed, hpos]))

/-- CVAL, CADV and XOR have the same checks. -/
theorem firstFailure_cadv (s : State) : Claims.firstFailure .cadv s = Claims.firstFailure .cval s := rfl

theorem firstFailure_xor (d : Byte) (s : State) :
    Claims.firstFailure (.xor d) s = Claims.firstFailure .cval s := rfl

theorem firstFailure_cval {s : State} (hl : s.chainLegal = true) :
    Claims.firstFailure .cval s = if s.chain.isSome then .ok else .notKeyed := by
  rw [← State.all_keyed_eq_isSome_chain hl]
  rfl

theorem firstFailure_cval_of_chain {s : State} {ps : List Positions} (hl : s.chainLegal = true)
    (hc : s.chain = some ps) : Claims.firstFailure .cval s = .ok := by
  rw [firstFailure_cval hl, hc]
  rfl

theorem firstFailure_cval_of_chain_none {s : State} (hl : s.chainLegal = true) (hc : s.chain = none) :
    Claims.firstFailure .cval s = .notKeyed := by
  rw [firstFailure_cval hl, hc]
  rfl

/-- A command that completes fails no check. -/
theorem Writes.firstFailure_eq_ok {i : Instr} {s u : State} (h : Writes i s u) (hl : s.chainLegal = true) :
    Claims.firstFailure i s = .ok := by
  cases i with
  | nop => rfl
  | cfg n =>
    obtain ⟨h1, hn, -⟩ := h
    exact if_neg (by omega)
  | key k keyin =>
    obtain ⟨hk, -⟩ := h
    exact if_neg (Nat.not_le.mpr hk)
  | val k =>
    obtain ⟨⟨p, hp⟩, -⟩ := h
    exact firstFailure_val_of_pos hp
  | adv k =>
    obtain ⟨p, hp, -, -⟩ := h
    exact (firstFailure_adv k s).trans (firstFailure_val_of_pos hp)
  | rdpos k w =>
    obtain ⟨⟨p, hp⟩, -⟩ := h
    exact (firstFailure_rdpos k w s).trans (firstFailure_val_of_pos hp)
  | cval =>
    obtain ⟨⟨ps, hc⟩, -⟩ := h
    exact firstFailure_cval_of_chain hl hc
  | cadv =>
    obtain ⟨ps, -, hc, -, -⟩ := h
    exact (firstFailure_cadv s).trans (firstFailure_cval_of_chain hl hc)
  | xor d =>
    obtain ⟨ps, -, hc, -, -⟩ := h
    exact (firstFailure_xor d s).trans (firstFailure_cval_of_chain hl hc)

/-- A refused command answers the code of the first check that fails. -/
theorem Refuses.firstFailure_eq {i : Instr} {s : State} {code : Status} (h : Refuses i s code)
    (hl : s.chainLegal = true) : Claims.firstFailure i s = code := by
  cases i with
  | nop => exact h.elim
  | cfg n =>
    obtain ⟨rfl, hn⟩ := h
    exact if_pos (hn.imp_left (congrArg BitVec.toNat))
  | key k keyin =>
    obtain ⟨rfl, hk⟩ := h
    exact if_pos hk
  | val k => exact firstFailure_val_of_refuses h
  | adv k => exact (firstFailure_adv k s).trans (firstFailure_val_of_refuses h)
  | rdpos k w => exact (firstFailure_rdpos k w s).trans (firstFailure_val_of_refuses h)
  | cval =>
    obtain ⟨rfl, hc⟩ := h
    exact firstFailure_cval_of_chain_none hl hc
  | cadv =>
    obtain ⟨rfl, hc⟩ := h
    exact (firstFailure_cadv s).trans (firstFailure_cval_of_chain_none hl hc)
  | xor d =>
    obtain ⟨rfl, hc⟩ := h
    exact (firstFailure_xor d s).trans (firstFailure_cval_of_chain_none hl hc)

theorem exec_status_eq_firstFailure {i : Instr} {s t : State} {r : Response} (hl : s.chainLegal = true)
    (h : exec i s = .next t) (hr : t.response = some r) : r.status = Claims.firstFailure i s := by
  rcases exec_next h with ⟨data, flag, u, hw, rfl⟩ | ⟨code, hcode, rfl⟩
  · obtain rfl := Option.some.inj hr
    exact (hw.firstFailure_eq_ok hl).symm
  · obtain rfl := Option.some.inj hr
    exact (hcode.firstFailure_eq hl).symm

end Sys2Proof.Machine

namespace Sys2Proof.Proofs

open Sys2Proof.Machine

/-- Settles O5: the nine pairs are the rows of the decoder's table, and no command's rule answers ILLEGAL. -/
theorem wordMatchingNoRowAnswersIllegal : Obligations.WordMatchingNoRowAnswersIllegal := by
  intro s cw keyin rest hp
  refine ⟨fun hno => ?_, fun t r hstep hr hillegal => ?_⟩
  · refine step_of_illegal hp (decode_of_no_row fun row hrow => beq_false_of_ne ?_)
    exact hno _ (List.mem_map_of_mem (f := fun row : DecodeRow => (row.mask, row.pattern)) hrow)
  · cases hd : decode cw keyin with
    | error e => exact ⟨e, rfl⟩
    | ok i =>
      have hexec := (step_of_decode hp hd).symm.trans hstep
      obtain ⟨hrefused, -⟩ := exec_refused hexec hr (by simp [hillegal])
      exact absurd hillegal hrefused.ne_illegal

/-- Settles O14: the refused command and a NOP leave states that differ in the response alone, which the next input
does not read. -/
theorem errorsArePreciseAndNotSticky : Obligations.ErrorsArePreciseAndNotSticky := by
  intro s t u cw keyin rest r hp hstep hr hne hnop
  obtain ⟨hresponse, rfl⟩ := step_refused hp hstep hr hne
  obtain rfl := next_inj hnop
  refine ⟨rfl, rfl, fun _ => rfl, congrArg Response.data hresponse, congrArg Response.flag hresponse, fun hrest => ?_⟩
  have hpending : (s.presentCommand rest).pending ≠ [] := hrest
  exact (step_of_response hpending _).trans (step_of_response hpending _).symm

/-- Settles O17: the one check of CFG, and no other rule answers INVALID_CONFIG. -/
theorem invalidConfigIsExactlyCfgOutsideOneToNmax : Obligations.InvalidConfigIsExactlyCfgOutsideOneToNmax := by
  refine ⟨fun s n hn => if_pos hn, fun i s t r hexec hr hcode => ?_⟩
  obtain ⟨hrefused, -⟩ := exec_refused hexec hr (by simp [hcode])
  exact (hcode ▸ hrefused).cfg_of_invalidConfig

/-- Settles O18: the stage operand is checked before anything else, and only the four stage commands have one. -/
theorem badStageIsExactlyAStageIndexFromNmaxOn : Obligations.BadStageIsExactlyAStageIndexFromNmaxOn := by
  refine ⟨fun s k hk => ?_, fun i s t r hexec hr hcode => ?_⟩
  · exact ⟨fun _ => onStage_of_le hk, onKeyedStage_of_le hk, onKeyedStage_of_le hk, fun _ => onKeyedStage_of_le hk⟩
  · obtain ⟨hrefused, -⟩ := exec_refused hexec hr (by simp [hcode])
    exact (hcode ▸ hrefused).stage_of_badStage

/-- Settles O19: an unkeyed stage of the block fails the keyed check of its own commands, and of the chain's when it is
active. -/
theorem notKeyedIsAnsweredOnUnkeyedStages : Obligations.NotKeyedIsAnsweredOnUnkeyedStages := by
  refine ⟨fun s k hk hkeyed => ?_, fun s k hn hmax hk hkeyed => ?_, fun i s t r hexec hr hcode => ?_⟩
  · have hrefused := onKeyedStage_of_stage_none (State.stage_none_of_unkeyed hk hkeyed)
    exact ⟨hrefused _, hrefused _, fun _ => hrefused _⟩
  · have hnone := State.stage_none_of_unkeyed (hk.trans_le hmax) hkeyed
    have hrefused := onKeyedChain_of_stage_none hn hmax hk hnone
    exact ⟨hrefused _, hrefused _, fun _ => hrefused _⟩
  · obtain ⟨hrefused, -⟩ := exec_refused hexec hr (by simp [hcode])
    exact (hcode ▸ hrefused).ne_key_cfg_nop_of_notKeyed

/-- Settles O20: every command answers under the invariant, with the code of its first failing check when it is refused
and OK when it completes; the presented word itself is checked before them. -/
theorem commandsReportTheFirstFailingCheck : Obligations.CommandsReportTheFirstFailingCheck := by
  intro s cw keyin rest h hp
  cases hd : decode cw keyin with
  | error e => exact ⟨_, _, step_of_illegal hp hd, rfl, fun _ _ => rfl, fun _ hok => nomatch hok⟩
  | ok i =>
    have hinv : (s.presentCommand rest).Inv := h
    obtain ⟨t, r, hexec, hr⟩ := exec_responds_of_inv hinv i
    refine ⟨t, r, (step_of_decode hp hd).trans hexec, hr, fun _ herror => (nomatch herror), fun j hok => ?_⟩
    obtain rfl := Except.ok.inj hok
    exact exec_status_eq_firstFailure (s := s.presentCommand rest) (State.chainLegal_of_inv hinv) hexec hr

end Sys2Proof.Proofs
end

section
/-! PROOFS. Reset and hazards (spec/70_reset_and_hazards.md): the block after the reset input, and the commands that
write the response alone. -/

namespace Sys2Proof.Machine

/-! ### The block after the reset input (R170) -/

@[simp] theorem State.resetBlock_nmax (s : State) : s.resetBlock.nmax = s.nmax :=
  List.length_replicate

@[simp] theorem State.resetBlock_pos (s : State) (k : Nat) : s.resetBlock.pos k = none :=
  Option.isNone_iff_eq_none.mp (Option.isSome_eq_false_iff.mp (s.resetBlock_keyed k))

/-! ### The commands that only read (R178) -/

/-- NOP, VAL, RDPOS and CVAL, completed or refused, write the response alone. -/
theorem exec_next_of_reading {i : Instr} {s t : State}
    (hi : i = .nop ∨ i = .cval ∨ (∃ k, i = .val k) ∨ ∃ k w, i = .rdpos k w) (h : exec i s = .next t) :
    ∃ st data flag, t = s.respond st data flag := by
  rcases exec_next h with ⟨data, flag, u, hw, rfl⟩ | ⟨code, -, rfl⟩
  · have hu : u = s := by
      rcases hi with rfl | rfl | ⟨k, rfl⟩ | ⟨k, w, rfl⟩
      exacts [hw, hw.2, hw.2, hw.2]
    exact ⟨.ok, data, flag, by rw [hu]⟩
  · exact ⟨code, 0x00#8, false, rfl⟩

end Sys2Proof.Machine

namespace Sys2Proof.Proofs

open Sys2Proof.Machine

/-- Settles O32: each of the four commands writes the response alone, and the response is none of these fields. -/
theorem readingCommandsChangeOnlyTheResponse : Obligations.ReadingCommandsChangeOnlyTheResponse := by
  intro i s t hi hexec
  obtain ⟨st, data, flag, rfl⟩ := exec_next_of_reading hi hexec
  exact ⟨s.respond_stages _ _ _, s.respond_n _ _ _, s.respond_pending _ _ _, s.respond_pc _ _ _, fun _ => rfl⟩

/-- Settles O9: the reset input resets the block and leaves the host's sequence and the tables as they are, so the next
command is decoded and run as any other. -/
theorem resetInputPutsTheBlockAtItsResetValues : Obligations.ResetInputPutsTheBlockAtItsResetValues := by
  intro s rest hp
  have hcommand : ∀ cw keyin rest' i, rest = .command cw keyin :: rest' → decode cw keyin = .ok i →
      step (s.present rest).resetBlock = exec i ((s.present rest).resetBlock.presentCommand rest') := by
    rintro cw keyin rest' i rfl hd
    exact step_of_decode (State.resetBlock_pending _) hd
  exact ⟨_, step_of_reset hp, State.resetBlock_nmax _, State.resetBlock_pos _, State.resetBlock_keyed _,
    State.resetBlock_n _, State.resetBlock_response _, State.resetBlock_pending _, fun _ => rfl, hcommand⟩

end Sys2Proof.Proofs
end

section
/-! PROOFS. Waiting for the host (spec/70_reset_and_hazards.md, section 1; notes/assumptions/6.md). -/

namespace Sys2Proof.Proofs

open Sys2Proof.Machine

/-- Settles O8: an empty sequence of inputs is the branch of the step that answers its own state. -/
theorem stepWaitsWhenNothingIsPresented : Obligations.StepWaitsWhenNothingIsPresented :=
  fun _ hp => step_of_nothing_pending hp

end Sys2Proof.Proofs
end
